-- ==== Sys2Proof/Word.lean ====
section
/-! DEFINITION. The widths of the machine: the register-width value, the instruction word, `wrap32` (00_scope.md R7, R8). -/

namespace Sys2Proof

/-- A register-width value, the spec's `Int32`: 32 bits, read as two's complement by `BitVec.toInt`
(00_scope.md R8, 10_state.md R20). Registers, stack entries and Memory cells all hold this one type. -/
abbrev Word := BitVec 32

/-- An instruction word, `ILEN = 64` bits (30_encoding.md R72). -/
abbrev InstrWord := BitVec 64

/-- One byte of a serialised word or cell (20_memory.md R55). -/
abbrev Byte := BitVec 8

/-- `wrap32(z)`: the one `Int32` congruent to `z` modulo `2^32` (00_scope.md R8). -/
def wrap32 (z : Int) : Word := BitVec.ofInt 32 z

end Sys2Proof
end

