-- ==== Sys2Proof/Config.lean ====
section
/-! DEFINITION. The sizes the spec fixes, and the values of the open parameters in `State.reset` (00_scope.md R7; log 1, 2). -/

namespace Sys2Proof.Config

/-- `NREGS = 16` (00_scope.md R7, 10_state.md R20). -/
abbrev numRegs : Nat := 16

/-- `TRAP_TABLE_SIZE = 16` (00_scope.md R7, 10_state.md R37). -/
abbrev trapTableSize : Nat := 16

/-- The largest `PROG_LEN`, `2^31 - 1` (00_scope.md R7, 20_memory.md R51). -/
def maxProgLen : Nat := 2147483647

/-- `MEM_SIZE` in `State.reset`. DESIGN CHOICE (log 1): the parameter is open and 65536 is the value decision D11
suggests. Unsafe for a claim that rests on this number. -/
def defaultMemSize : Nat := 65536

/-- `STACK_CAPACITY` in `State.reset`; `none` is the spec's `unbounded`, its default (10_state.md R31).
DESIGN CHOICE (log 1): unsafe for a claim about `State.reset` on hardware with a finite stack. -/
def defaultStackCapacity : Option Nat := none

end Sys2Proof.Config
end

