-- ==== Sys2Proof/Syntax.lean ====
section
/-! DEFINITION. The instructions: the 22 opcodes, the word-form instruction `Instr`, and the document's structure form
`DecodedInstruction` (30_encoding.md R70, R71, R76). -/

namespace Sys2Proof

/-- A register index `0 .. 15` (10_state.md R21): the only indices there are. -/
abbrev RegIdx := Fin Config.numRegs

/-- A trap number in the Trap Table's range `0 .. 15` (10_state.md R37). -/
abbrev TrapNumber := Fin Config.trapTableSize

/-- The 22 opcodes of the Instruction Set Table, in its order (30_encoding.md R76). -/
inductive Opcode where
  | add | sub | mul | div | mov
  | jmp | jz | jnz | je | jne | jl | jle | jg | jge
  | cmp | push | pop | call | ret | hlt | nop | trap
deriving DecidableEq, Repr

/-- A decoded instruction with its operands (30_encoding.md R71, R73, R78), one constructor per row of the table.
`ra` is the first register operand ("dest reg", "reg a"), `rb` the second ("src reg", "reg b"); `t` is an absolute
Program index, `n` a trap number as it stands in the word (any 32-bit value). -/
inductive Instr where
  | add (ra rb : RegIdx)
  | sub (ra rb : RegIdx)
  | mul (ra rb : RegIdx)
  | div (ra rb : RegIdx)
  | mov (ra rb : RegIdx)
  | jmp (t : Word)
  | jz (t : Word)
  | jnz (t : Word)
  | je (t : Word)
  | jne (t : Word)
  | jl (t : Word)
  | jle (t : Word)
  | jg (t : Word)
  | jge (t : Word)
  | cmp (ra rb : RegIdx)
  | push (ra : RegIdx)
  | pop (ra : RegIdx)
  | call (t : Word)
  | ret
  | hlt
  | nop
  | trap (n : Word)
deriving DecidableEq, Repr

/-- An operand of the structure form (30_encoding.md R71): a register identifier or an immediate (a target address or a
trap number). The numbers are unchecked here; WellFormed.lean checks them. -/
inductive Operand where
  | reg (i : Nat)
  | imm (v : Int)
deriving DecidableEq, Repr

/-- The document's DecodedInstruction: "an opcode plus an ordered sequence of operands", the opcode being its numeric
code `0 .. 65535` (30_encoding.md R70). -/
structure DecodedInstruction where
  opcode : BitVec 16
  operands : List Operand
deriving DecidableEq, Repr

end Sys2Proof
end

