-- ==== Sys2Proof/Decode.lean ====
section
/-! DEFINITION. The Instruction Set Table, the decoder (total, rejecting by name), the encoder, the structure form's
conversions, and the serialised byte order (30_encoding.md R72 to R84, 20_memory.md R55). -/

namespace Sys2Proof

/-- Why a word (or a structure-form instruction) is no instruction. The first two are the two causes of `DecodeError`
(30_encoding.md R79, R80); the next three concern the structure form only and have no word form (R83, log 9); the last
is a byte image that is not one whole word (20_memory.md R55). -/
inductive DecodeReject where
  | unknownOpcode
  | operandCount
  | operandKind
  | registerRange
  | immediateRange
  | imageLength
deriving DecidableEq, Repr

/-! ### The Instruction Set Table (R76) -/

/-- The four formats (30_encoding.md R73). -/
inductive Format where
  | Z | R | RR | I
deriving DecidableEq, Repr

/-- The number of operands of a format (30_encoding.md R73). -/
def Format.arity : Format → Nat
  | .Z => 0
  | .R => 1
  | .RR => 2
  | .I => 1

/-- The numeric code of each opcode (30_encoding.md R76, R77). -/
def Opcode.code : Opcode → BitVec 16
  | .add => 0x0001
  | .sub => 0x0002
  | .mul => 0x0003
  | .div => 0x0004
  | .mov => 0x0005
  | .jmp => 0x0006
  | .jz => 0x0007
  | .jnz => 0x0008
  | .je => 0x0009
  | .jne => 0x000A
  | .jl => 0x000B
  | .jle => 0x000C
  | .jg => 0x000D
  | .jge => 0x000E
  | .cmp => 0x000F
  | .push => 0x0010
  | .pop => 0x0011
  | .call => 0x0012
  | .ret => 0x0013
  | .hlt => 0x0014
  | .nop => 0x0015
  | .trap => 0x0016

/-- The opcode a numeric code names; every code outside `0x0001 .. 0x0016` names none (30_encoding.md R77, R79). -/
def Opcode.ofCode (c : BitVec 16) : Option Opcode :=
  match c.toNat with
  | 1 => some .add
  | 2 => some .sub
  | 3 => some .mul
  | 4 => some .div
  | 5 => some .mov
  | 6 => some .jmp
  | 7 => some .jz
  | 8 => some .jnz
  | 9 => some .je
  | 10 => some .jne
  | 11 => some .jl
  | 12 => some .jle
  | 13 => some .jg
  | 14 => some .jge
  | 15 => some .cmp
  | 16 => some .push
  | 17 => some .pop
  | 18 => some .call
  | 19 => some .ret
  | 20 => some .hlt
  | 21 => some .nop
  | 22 => some .trap
  | _ => none

/-- The format column of the table (30_encoding.md R76). -/
def Opcode.format : Opcode → Format
  | .add => .RR
  | .sub => .RR
  | .mul => .RR
  | .div => .RR
  | .mov => .RR
  | .jmp => .I
  | .jz => .I
  | .jnz => .I
  | .je => .I
  | .jne => .I
  | .jl => .I
  | .jle => .I
  | .jg => .I
  | .jge => .I
  | .cmp => .RR
  | .push => .R
  | .pop => .R
  | .call => .I
  | .ret => .Z
  | .hlt => .Z
  | .nop => .Z
  | .trap => .I

/-- The required operand count of an opcode (30_encoding.md R76). -/
def Opcode.arity (op : Opcode) : Nat := op.format.arity

/-- The mnemonic, "for diagnostics only" (30_encoding.md R70). -/
def Opcode.mnemonic : Opcode → String
  | .add => "ADD"
  | .sub => "SUB"
  | .mul => "MUL"
  | .div => "DIV"
  | .mov => "MOV"
  | .jmp => "JMP"
  | .jz => "JZ"
  | .jnz => "JNZ"
  | .je => "JE"
  | .jne => "JNE"
  | .jl => "JL"
  | .jle => "JLE"
  | .jg => "JG"
  | .jge => "JGE"
  | .cmp => "CMP"
  | .push => "PUSH"
  | .pop => "POP"
  | .call => "CALL"
  | .ret => "RET"
  | .hlt => "HLT"
  | .nop => "NOP"
  | .trap => "TRAP"

/-- The opcode of an instruction. -/
def Instr.opcode : Instr → Opcode
  | .add _ _ => .add
  | .sub _ _ => .sub
  | .mul _ _ => .mul
  | .div _ _ => .div
  | .mov _ _ => .mov
  | .jmp _ => .jmp
  | .jz _ => .jz
  | .jnz _ => .jnz
  | .je _ => .je
  | .jne _ => .jne
  | .jl _ => .jl
  | .jle _ => .jle
  | .jg _ => .jg
  | .jge _ => .jge
  | .cmp _ _ => .cmp
  | .push _ => .push
  | .pop _ => .pop
  | .call _ => .call
  | .ret => .ret
  | .hlt => .hlt
  | .nop => .nop
  | .trap _ => .trap

/-! ### The fields of a word (R72, R73) -/

/-- `W[63:48]`, the opcode's numeric code (30_encoding.md R72). -/
def opcodeField (w : InstrWord) : BitVec 16 := w.extractLsb' 48 16

/-- `W[47:40]`, the operand count the word carries (30_encoding.md R72). -/
def nopsField (w : InstrWord) : BitVec 8 := w.extractLsb' 40 8

/-- `W[31:0]`, the payload; in format `I` all of it is the immediate, an `Int32` (30_encoding.md R72 to R74). -/
def payloadField (w : InstrWord) : Word := w.extractLsb' 0 32

/-- The register index in payload bits `3:0`: `ra` of format `R`, `rb` of format `RR` (30_encoding.md R73, R74). -/
def lowReg (p : Word) : RegIdx := (p.extractLsb' 0 4).toFin

/-- The register index in payload bits `7:4`: `ra` of format `RR` (30_encoding.md R73, R74). -/
def highReg (p : Word) : RegIdx := (p.extractLsb' 4 4).toFin

/-! ### The decoder (R78) -/

/-- The operands of `op` read from the payload by the format of `op`: `RR` reads `highReg` then `lowReg`, `R` reads
`lowReg`, `I` the whole payload, `Z` nothing (30_encoding.md R73, R78). -/
def Opcode.assemble (op : Opcode) (p : Word) : Instr :=
  match op with
  | .add => .add (highReg p) (lowReg p)
  | .sub => .sub (highReg p) (lowReg p)
  | .mul => .mul (highReg p) (lowReg p)
  | .div => .div (highReg p) (lowReg p)
  | .mov => .mov (highReg p) (lowReg p)
  | .jmp => .jmp p
  | .jz => .jz p
  | .jnz => .jnz p
  | .je => .je p
  | .jne => .jne p
  | .jl => .jl p
  | .jle => .jle p
  | .jg => .jg p
  | .jge => .jge p
  | .cmp => .cmp (highReg p) (lowReg p)
  | .push => .push (lowReg p)
  | .pop => .pop (lowReg p)
  | .call => .call p
  | .ret => .ret
  | .hlt => .hlt
  | .nop => .nop
  | .trap => .trap p

/-- `Decode(W)` (30_encoding.md R78): the opcode is tested first (R79), then the operand count (R80); the ignored bits
take no part (R75). -/
def decode (w : InstrWord) : Except DecodeReject Instr :=
  match Opcode.ofCode (opcodeField w) with
  | none => .error .unknownOpcode
  | some op =>
    if (nopsField w).toNat = op.arity then .ok (op.assemble (payloadField w)) else .error .operandCount

/-! ### The encoder (R83) -/

/-- A word from its fields, with the reserved byte `W[39:32]` zero (30_encoding.md R72, R83). -/
def packWord (code : BitVec 16) (nops : BitVec 8) (payload : Word) : InstrWord :=
  (code ++ nops ++ (0 : BitVec 8) ++ payload : BitVec (16 + 8 + 8 + 32))

/-- The payload of format `RR`, unused bits zero (30_encoding.md R73). -/
def payloadRR (ra rb : RegIdx) : Word :=
  ((0 : BitVec 24) ++ BitVec.ofFin (w := 4) ra ++ BitVec.ofFin (w := 4) rb : BitVec (24 + 4 + 4))

/-- The payload of format `R`, unused bits zero (30_encoding.md R73). -/
def payloadR (ra : RegIdx) : Word :=
  ((0 : BitVec 28) ++ BitVec.ofFin (w := 4) ra : BitVec (28 + 4))

/-- The payload of an instruction, unused bits zero (30_encoding.md R73, R83). -/
def Instr.payload : Instr → Word
  | .add ra rb => payloadRR ra rb
  | .sub ra rb => payloadRR ra rb
  | .mul ra rb => payloadRR ra rb
  | .div ra rb => payloadRR ra rb
  | .mov ra rb => payloadRR ra rb
  | .jmp t => t
  | .jz t => t
  | .jnz t => t
  | .je t => t
  | .jne t => t
  | .jl t => t
  | .jle t => t
  | .jg t => t
  | .jge t => t
  | .cmp ra rb => payloadRR ra rb
  | .push ra => payloadR ra
  | .pop ra => payloadR ra
  | .call t => t
  | .ret => 0
  | .hlt => 0
  | .nop => 0
  | .trap n => n

/-- `Encode(op, operands)` (30_encoding.md R83). -/
def encode (i : Instr) : InstrWord :=
  packWord i.opcode.code (BitVec.ofNat 8 i.opcode.arity) i.payload

/-- The bits of a word that decoding reads: `opcode` and `nops` always, the payload bits by format
(30_encoding.md R72, R73, R75). -/
def Format.usedBits : Format → InstrWord
  | .Z => 0xFFFFFF0000000000
  | .R => 0xFFFFFF000000000F
  | .RR => 0xFFFFFF00000000FF
  | .I => 0xFFFFFF00FFFFFFFF

/-! ### The table as rows (R76, R84) -/

/-- One row of the opcode map: mnemonic, code, operand count, and the `match` and `mask` of a valid word
(30_encoding.md R76, R84). -/
structure InstructionSpec where
  mnemonic : String
  code : BitVec 16
  operandCount : Nat
  matchBits : InstrWord
  maskBits : InstrWord
deriving DecidableEq, Repr

/-- The table's row of an opcode (30_encoding.md R76, R84). -/
def Opcode.spec (op : Opcode) : InstructionSpec where
  mnemonic := op.mnemonic
  code := op.code
  operandCount := op.arity
  matchBits := packWord op.code (BitVec.ofNat 8 op.arity) 0
  maskBits := 0xFFFFFF0000000000

/-- The opcodes in the table's order. -/
def Opcode.all : List Opcode :=
  [.add, .sub, .mul, .div, .mov, .jmp, .jz, .jnz, .je, .jne, .jl, .jle, .jg, .jge, .cmp, .push, .pop, .call, .ret,
   .hlt, .nop, .trap]

/-- The Instruction Set Table, "defined once at process start, never mutated" (10_state.md R38, 30_encoding.md R76). -/
def instructionSetTable : List InstructionSpec := Opcode.all.map Opcode.spec

/-! ### The structure form (R70, R80, R83) -/

/-- A register identifier of the structure form; one outside `0 .. 15` is not admitted (30_encoding.md R83). -/
def regOfNat (i : Nat) : Except DecodeReject RegIdx :=
  if h : i < Config.numRegs then .ok ⟨i, h⟩ else .error .registerRange

/-- An immediate of the structure form; it is an `Int32` (30_encoding.md R74, R83). -/
def immOfInt (v : Int) : Except DecodeReject Word :=
  if -2147483648 ≤ v ∧ v ≤ 2147483647 then .ok (BitVec.ofInt 32 v) else .error .immediateRange

/-- The payload that the operand list of a format stands for (30_encoding.md R73, R83). A count that differs from the
format's is `operandCount` (R80); an operand of the wrong kind is `operandKind` (log 9). -/
def Format.payloadOf (f : Format) (ops : List Operand) : Except DecodeReject Word :=
  match f, ops with
  | .Z, [] => .ok 0
  | .R, [.reg a] => (regOfNat a).map payloadR
  | .R, [.imm _] => .error .operandKind
  | .RR, [.reg a, .reg b] =>
    match regOfNat a, regOfNat b with
    | .ok ra, .ok rb => .ok (payloadRR ra rb)
    | .error e, _ => .error e
    | .ok _, .error e => .error e
  | .RR, [_, _] => .error .operandKind
  | .I, [.imm v] => immOfInt v
  | .I, [.reg _] => .error .operandKind
  | _, _ => .error .operandCount

/-- The instruction a DecodedInstruction stands for: the checks of R79 and R80 in that order, then the operands
(30_encoding.md R70, R80, R83). -/
def ofDecoded (d : DecodedInstruction) : Except DecodeReject Instr :=
  match Opcode.ofCode d.opcode with
  | none => .error .unknownOpcode
  | some op => (op.format.payloadOf d.operands).map op.assemble

/-- The operand list of an instruction (30_encoding.md R71, R73): first operand first. -/
def Instr.operands : Instr → List Operand
  | .add ra rb => [.reg ra.val, .reg rb.val]
  | .sub ra rb => [.reg ra.val, .reg rb.val]
  | .mul ra rb => [.reg ra.val, .reg rb.val]
  | .div ra rb => [.reg ra.val, .reg rb.val]
  | .mov ra rb => [.reg ra.val, .reg rb.val]
  | .jmp t => [.imm t.toInt]
  | .jz t => [.imm t.toInt]
  | .jnz t => [.imm t.toInt]
  | .je t => [.imm t.toInt]
  | .jne t => [.imm t.toInt]
  | .jl t => [.imm t.toInt]
  | .jle t => [.imm t.toInt]
  | .jg t => [.imm t.toInt]
  | .jge t => [.imm t.toInt]
  | .cmp ra rb => [.reg ra.val, .reg rb.val]
  | .push ra => [.reg ra.val]
  | .pop ra => [.reg ra.val]
  | .call t => [.imm t.toInt]
  | .ret => []
  | .hlt => []
  | .nop => []
  | .trap n => [.imm n.toInt]

/-- The structure form of an instruction (30_encoding.md R83). -/
def Instr.toDecoded (i : Instr) : DecodedInstruction := ⟨i.opcode.code, i.operands⟩

/-! ### Serialised words and cells (20_memory.md R55) -/

/-- Byte `k` of a serialised instruction word is `W[8k+7 : 8k]`, for `k` from 0 to 7 (20_memory.md R55). -/
def wordToBytes (w : InstrWord) : List Byte := (List.range 8).map fun k => w.extractLsb' (8 * k) 8

/-- The word a serialised image of eight bytes stands for (20_memory.md R55). -/
def bytesToWord : List Byte → Option InstrWord
  | [b0, b1, b2, b3, b4, b5, b6, b7] =>
    some (b7 ++ b6 ++ b5 ++ b4 ++ b3 ++ b2 ++ b1 ++ b0 : BitVec (8 + 8 + 8 + 8 + 8 + 8 + 8 + 8))
  | _ => none

/-- Byte `k` of a serialised cell is `v[8k+7 : 8k]`, for `k` from 0 to 3 (20_memory.md R55). -/
def cellToBytes (v : Word) : List Byte := (List.range 4).map fun k => v.extractLsb' (8 * k) 8

/-- The cell a serialised image of four bytes stands for (20_memory.md R55). -/
def bytesToCell : List Byte → Option Word
  | [b0, b1, b2, b3] => some (b3 ++ b2 ++ b1 ++ b0 : BitVec (8 + 8 + 8 + 8))
  | _ => none

/-- The decoder on a serialised word: total on any bytes; an image that is not eight bytes long is rejected by name. -/
def decodeBytes (bs : List Byte) : Except DecodeReject Instr :=
  match bytesToWord bs with
  | none => .error .imageLength
  | some w => decode w

/-- The instruction the decoder reads from the number `w` of an opcode-table row of `nbits` bits, every bit at or above
`nbits` being 0; `none` where the decoder rejects it. -/
def decodeTableWord (nbits w : Nat) : Option Instr :=
  match decode (BitVec.ofNat 64 (w % 2 ^ nbits)) with
  | .ok i => some i
  | .error _ => none

end Sys2Proof
end

