-- ==== Sys2Proof/Machine/State.lean ====
section
/-! DEFINITION. The machine's state as plain data, its reset value, and the reasons a step can stop (10_state.md). -/

namespace Sys2Proof.Machine

/-- `run_state` (10_state.md R33). -/
inductive RunState where
  | ready
  | running
  | halted
  | faulted
deriving DecidableEq, Repr

/-- `fault_kind` (10_state.md R34, 60_exceptions.md R180 to R186); `noFault` is the spec's "none". -/
inductive FaultKind where
  | noFault
  | decodeError
  | fetchOutOfBounds
  | divideByZero
  | stackUnderflow
  | trapError
  | stackOverflow
deriving DecidableEq, Repr

/-- The handler of one Trap Table entry, by what the machine can see of it: a handler touches no machine state and
returns nothing but completion (45_system_trap.md R173), so it either completes, having logged its diagnostic (R174),
or never completes (R173, 93_implementation_defined.md U7; log 6). -/
inductive Handler where
  | diagnostic
  | neverCompletes
deriving DecidableEq, Repr

/-- Memory: (cell address, cell) pairs in one canonical form, addresses strictly rising, no entry equal to what an
unlisted cell reads as (`Memory.wf`). A cell is one 32-bit value, the only unit Memory has (20_memory.md R52, R55;
log 4). -/
abbrev Memory := List (Nat × Word)

/-- Everything the spec gives the machine (10_state.md R20 to R42, 20_memory.md R51, R52). -/
structure State where
  /-- `R0 .. R15`; `R15` is the program counter, `R0` the comparison register (10_state.md R20, R21). -/
  regs : Vector Word 16
  /-- The operand stack, top first; `depth` is its length (10_state.md R30; log 8). -/
  stack : List Word
  /-- `run_state` (10_state.md R33). -/
  runState : RunState
  /-- `fault_kind` (10_state.md R34). -/
  faultKind : FaultKind
  /-- `fault_pc` (10_state.md R34). -/
  faultPc : Word
  /-- `trap_log`, oldest first (10_state.md R36). -/
  trapLog : List TrapNumber
  /-- Memory (20_memory.md R52). -/
  memory : Memory
  /-- The Program; `PROG_LEN` is its length (20_memory.md R51). -/
  program : List InstrWord
  /-- The Trap Table (10_state.md R37). -/
  trapTable : Vector Handler 16
  /-- The parameter `MEM_SIZE` (00_scope.md R7; log 1). -/
  memSize : Nat
  /-- The parameter `STACK_CAPACITY`; `none` is `unbounded` (00_scope.md R7, 10_state.md R31; log 1). -/
  stackCapacity : Option Nat
deriving DecidableEq, Repr

/-- Why no step is possible. The machine's own fatal errors are NOT here: they are taken as the spec describes them, a
next state in `faulted` (60_exceptions.md R190). -/
inductive Fault where
  /-- Raised by `step` alone, in `Ready`: nothing executes before the host's `start` (40_execution_cycle.md R108, R109;
  log 5). Safe: the spec takes no step there. -/
  | notStarted
  /-- Raised by `step` alone, in `Halted`: terminal, no step is enabled (R109; log 5). Safe. -/
  | halted
  /-- Raised by `step` alone, in `Faulted`: terminal, no step is enabled (R109; log 5). Safe. -/
  | faulted
  /-- Raised by `execTrap` alone, when the Trap Table's handler for this number never completes: the machine hangs in
  the TRAP step (45_system_trap.md R173, 93_implementation_defined.md U7; log 6). Safe: stuck, as U7 says. -/
  | trapHandlerNeverCompletes (n : TrapNumber)
deriving DecidableEq, Repr

/-- Why an instruction has no meaning. -/
inductive Refusal where
  /-- Raised only by an arm of `exec` whose instruction has no meaning yet; no arm of this model is one. Safe. -/
  | notModelled (mnemonic : String)
deriving DecidableEq, Repr

/-- The state after reset under a configuration: every piece of state at its reset value (10_state.md R42); the Program,
the Trap Table and the parameters are kept as configured (70_reset_and_hazards.md R220). -/
def State.resetWith (program : List InstrWord) (trapTable : Vector Handler 16) (memSize : Nat)
    (stackCapacity : Option Nat) : State where
  regs := Vector.replicate 16 0
  stack := []
  runState := .ready
  faultKind := .noFault
  faultPc := 0
  trapLog := []
  memory := []
  program := program
  trapTable := trapTable
  memSize := memSize
  stackCapacity := stackCapacity

/-- The machine right after reset (10_state.md R42) in the default configuration: no Program loaded yet (log 2), the
default trap set (45_system_trap.md R174), `MEM_SIZE` and `STACK_CAPACITY` at their defaults (log 1). -/
def State.reset : State :=
  State.resetWith [] (Vector.replicate 16 .diagnostic) Config.defaultMemSize Config.defaultStackCapacity

end Sys2Proof.Machine
end

