-- ==== Sys2Proof/Machine/Operands.lean ====
section
/-! DEFINITION. Register and immediate operands: the one place registers are read and written (10_state.md R20 to R28,
30_encoding.md R74). -/

namespace Sys2Proof.Machine

/-- `R0`, the comparison register `flag` (10_state.md R21, R29). -/
abbrev flagReg : RegIdx := 0

/-- `R1`, the right comparand of the dual-register jumps (10_state.md R23, 43_jumps.md R150). -/
abbrev comparandReg : RegIdx := 1

/-- `R15`, the program counter (10_state.md R21, R25). -/
abbrev pcReg : RegIdx := 15

/-- `x[i]` (00_scope.md R9). No register is hardwired (10_state.md R22). -/
def State.reg (s : State) (i : RegIdx) : Word := s.regs.get i

/-- `x[i] <- v` (00_scope.md R9); the same for every index, R0 and R15 too (10_state.md R22, R28). -/
def State.setReg (s : State) (i : RegIdx) (v : Word) : State := { s with regs := s.regs.set i.val v i.isLt }

/-- `pc`, an alias of `x[15]`; during a step it is `pc0`, the index of the executing instruction (10_state.md R25). -/
def State.pc (s : State) : Word := s.reg pcReg

/-- `pc <- t` (00_scope.md R9). -/
def State.setPc (s : State) (t : Word) : State := s.setReg pcReg t

/-- The Trap Table index an immediate names: it is in range exactly when `0 <= n < TRAP_TABLE_SIZE`, signed
(45_system_trap.md R172, 60_exceptions.md R185). -/
def trapIndex (n : Word) : Option TrapNumber :=
  if h : 0 ≤ n.toInt ∧ n.toInt < 16 then some ⟨n.toInt.toNat, by simp only [Config.trapTableSize]; omega⟩ else none

end Sys2Proof.Machine
end

