-- ==== Sys2Proof/Machine/Flags.lean ====
section
/-! DEFINITION. The comparison CMP writes to R0 and the conditions the jumps read: the machine's only condition state is
R0 (10_state.md R29, 42_move_compare.md R131, 43_jumps.md R142 to R150). All comparisons are signed (00_scope.md R8). -/

namespace Sys2Proof.Machine

/-- The three-way comparison of `CMP(a, b)`: `-1` when `a < b`, `0` when equal, `1` when `a > b`, on the exact signed
values (42_move_compare.md R131). -/
def threeWay (a b : Word) : Word :=
  if a.toInt < b.toInt then wrap32 (-1) else if a.toInt = b.toInt then wrap32 0 else wrap32 1

/-- `JZ`: `x[0] == 0` (43_jumps.md R142). -/
def condZero (s : State) : Bool := (s.reg flagReg).toInt = 0

/-- `JNZ`: `x[0] != 0` (43_jumps.md R143). -/
def condNotZero (s : State) : Bool := (s.reg flagReg).toInt ≠ 0

/-- `JE`: `x[0] == x[1]` (43_jumps.md R144). -/
def condEqual (s : State) : Bool := (s.reg flagReg).toInt = (s.reg comparandReg).toInt

/-- `JNE`: `x[0] != x[1]` (43_jumps.md R145). -/
def condNotEqual (s : State) : Bool := (s.reg flagReg).toInt ≠ (s.reg comparandReg).toInt

/-- `JL`: `x[0] < x[1]` (43_jumps.md R146). -/
def condLess (s : State) : Bool := (s.reg flagReg).toInt < (s.reg comparandReg).toInt

/-- `JLE`: `x[0] <= x[1]` (43_jumps.md R147). -/
def condLessEqual (s : State) : Bool := (s.reg flagReg).toInt ≤ (s.reg comparandReg).toInt

/-- `JG`: `x[0] > x[1]` (43_jumps.md R148). -/
def condGreater (s : State) : Bool := (s.reg flagReg).toInt > (s.reg comparandReg).toInt

/-- `JGE`: `x[0] >= x[1]` (43_jumps.md R149). -/
def condGreaterEqual (s : State) : Bool := (s.reg flagReg).toInt ≥ (s.reg comparandReg).toInt

end Sys2Proof.Machine
end

