-- ==== Sys2Proof/Machine/Ops.lean ====
section
/-! DEFINITION. The shared operations: the end of a step, fault entry, the stack, the trap port, Fetch, and Memory's
canonical form (40_execution_cycle.md, 60_exceptions.md, 44_stack_call.md, 20_memory.md). -/

namespace Sys2Proof.Machine

/-! ### The end of a step -/

/-- The result of Execute (00_scope.md R12). -/
inductive StepResult where
  | sequential
  | redirected
  | halt
deriving DecidableEq, Repr

/-- The program-counter incrementer: `x[15] <- wrap32(x[15] + 1)` on the value R15 holds after Execute
(40_execution_cycle.md R106, 10_state.md R27). -/
def State.advance (s : State) : State := s.setPc (wrap32 (s.pc.toInt + 1))

/-- Advance and Halt, parts 4 and 5 of Step (40_execution_cycle.md R100, R105, R106). -/
def State.retire (s : State) : StepResult → State
  | .sequential => s.advance
  | .redirected => s
  | .halt => { s with runState := .halted }

/-- An instruction whose Execute leaves `s` and falls off the end: result `Sequential` (00_scope.md R12). -/
def sequential (s : State) : Host.Outcome State Fault Refusal := .next (s.retire .sequential)

/-- `pc <- t (redirect)`: result `Redirected` (00_scope.md R12, 40_execution_cycle.md R107). -/
def redirect (t : Word) (s : State) : Host.Outcome State Fault Refusal := .next ((s.setPc t).retire .redirected)

/-- A conditional jump: a redirect when the condition holds, else `Sequential` (43_jumps.md R140). -/
def branch (taken : Bool) (t : Word) (s : State) : Host.Outcome State Fault Refusal :=
  if taken then redirect t s else sequential s

/-- `x[ra] <- v`, then `Sequential`: the end of ADD, SUB, MUL, DIV, MOV, CMP and POP. A write to R15 is no redirect, so
Advance adds 1 to it (10_state.md R28, 40_execution_cycle.md R107). -/
def writeBack (ra : RegIdx) (v : Word) (s : State) : Host.Outcome State Fault Refusal := sequential (s.setReg ra v)

/-! ### Taking a fault -/

/-- Fault entry, `raise K(pc0)`: the kind and the pc are recorded, the run state becomes `Faulted`, nothing else changes
(60_exceptions.md R190, 00_scope.md R11). R15 still holds `pc0`. There is no return from a fault (R194): `Faulted` is
terminal, and only the host's reset leaves it (40_execution_cycle.md R109). -/
def State.raise (s : State) (k : FaultKind) : State :=
  { s with faultKind := k, faultPc := s.pc, runState := .faulted }

/-- A step that takes the fault `k`: the next state is the fault entry (60_exceptions.md R190). -/
def takeFault (k : FaultKind) (s : State) : Host.Outcome State Fault Refusal := .next (s.raise k)

/-! ### The operand stack (10_state.md R30 to R32) -/

/-- `STACK_CAPACITY` is finite and `depth == STACK_CAPACITY` (44_stack_call.md R160, R162). -/
def State.stackFull (s : State) : Bool := s.stackCapacity = some s.stack.length

/-- `Push(v)` (00_scope.md R9). -/
def State.push (s : State) (v : Word) : State := { s with stack := v :: s.stack }

/-- `Pop()`: the top and the state without it; `none` when `depth == 0` (00_scope.md R9). -/
def State.pop (s : State) : Option (Word × State) :=
  match s.stack with
  | [] => none
  | v :: rest => some (v, { s with stack := rest })

/-! ### The trap port (10_state.md R36, R40) -/

/-- `trap_log <- trap_log ++ [n]` (45_system_trap.md R172). -/
def State.logTrap (s : State) (n : TrapNumber) : State := { s with trapLog := s.trapLog ++ [n] }

/-- Whether `handler[n]` signals completion (10_state.md R40, 45_system_trap.md R173). -/
def State.handlerCompletes (s : State) (n : TrapNumber) : Bool := s.trapTable.get n = .diagnostic

/-! ### Fetch (40_execution_cycle.md R101) -/

/-- `ProgRead(pc)`: the word at Program index `pc`, read signed; `none` when `pc < 0` or `pc >= PROG_LEN`
(20_memory.md R53, 40_execution_cycle.md R101). -/
def State.fetch (s : State) : Option InstrWord :=
  if 0 ≤ s.pc.toInt then s.program[s.pc.toInt.toNat]? else none

/-- A Program with the word `w` at index `i`, filled up with zero words (which are no instruction, 30_encoding.md R79)
where it was shorter. -/
def placeWord : List InstrWord → Nat → InstrWord → List InstrWord
  | [], 0, w => [w]
  | [], i + 1, w => 0 :: placeWord [] i w
  | _ :: rest, 0, w => w :: rest
  | x :: rest, i + 1, w => x :: placeWord rest i w

/-- The state with the word `w` where the next step fetches, ready to take that step: `w` stands at index `pc` of the
Program, and the run state is `Running`. A `pc` that is no Program index (negative, or `2^31 - 1`) becomes 0 first
(log 2). -/
def State.placeNext (s : State) (w : InstrWord) : State :=
  let s' := if 0 ≤ s.pc.toInt ∧ s.pc.toInt < (Config.maxProgLen : Int) then s else s.setPc 0
  { s' with program := placeWord s'.program s'.pc.toInt.toNat w, runState := .running }

/-! ### Memory (20_memory.md R52, R54) -/

/-- What a cell that is not listed reads as: the reset value of every cell (10_state.md R42). -/
def Memory.unlisted : Word := 0

/-- The canonical form: addresses strictly rising, no entry equal to what an unlisted cell reads as. -/
def Memory.wf (m : Memory) : Bool :=
  decide (m.Pairwise fun p q => p.1 < q.1) && m.all fun p => p.2 != Memory.unlisted

/-- Every listed cell is one of the cells `0 .. n - 1` (20_memory.md R52). -/
def Memory.within (n : Nat) (m : Memory) : Bool := m.all fun p => p.1 < n

/-- The cell at address `a`. -/
def Memory.read : Memory → Nat → Word
  | [], _ => Memory.unlisted
  | (b, u) :: rest, a => if a = b then u else Memory.read rest a

/-- An entry in front of a canonical list, left out when it says what an unlisted cell reads as. -/
def Memory.put (a : Nat) (v : Word) (m : Memory) : Memory := if v = Memory.unlisted then m else (a, v) :: m

/-- The memory with cell `a` holding `v`, in canonical form again. -/
def Memory.write : Memory → Nat → Word → Memory
  | [], a, v => Memory.put a v []
  | (b, u) :: rest, a, v =>
    if a < b then Memory.put a v ((b, u) :: rest)
    else if a = b then Memory.put a v rest
    else (b, u) :: Memory.write rest a v

/-- The Memory address decoder: address `a` selects cell `a` exactly when `0 <= a < MEM_SIZE` (20_memory.md R54). -/
def State.selectCell (s : State) (a : Int) : Option Nat :=
  if 0 ≤ a ∧ a < (s.memSize : Int) then some a.toNat else none

/-- `MemRead(a, 1)`: the cell's value; no value out of range (20_memory.md R54). -/
def State.memRead (s : State) (a : Int) : Option Word := (s.selectCell a).map s.memory.read

/-- `MemWrite(a, 1, v)`; out of range it is refused and no cell changes (20_memory.md R54). -/
def State.memWrite (s : State) (a : Int) (v : Word) : Option State :=
  (s.selectCell a).map fun n => { s with memory := s.memory.write n v }

end Sys2Proof.Machine
end

