-- ==== Sys2Proof/Machine/Arithmetic.lean ====
section
/-! DEFINITION. ADD, SUB, MUL, DIV (41_arithmetic.md): the exact result on the signed values, narrowed by `wrap32`
(R125). Both sources are read before the destination is written (R120). -/

namespace Sys2Proof.Machine

/-- `ADD(ra, rb)` (41_arithmetic.md R121). -/
def execAdd (ra rb : RegIdx) (s : State) : Host.Outcome State Fault Refusal :=
  writeBack ra (wrap32 ((s.reg ra).toInt + (s.reg rb).toInt)) s

/-- `SUB(ra, rb)`, dest minus src (41_arithmetic.md R122). -/
def execSub (ra rb : RegIdx) (s : State) : Host.Outcome State Fault Refusal :=
  writeBack ra (wrap32 ((s.reg ra).toInt - (s.reg rb).toInt)) s

/-- `MUL(ra, rb)`, the low 32 bits of the exact product (41_arithmetic.md R123). -/
def execMul (ra rb : RegIdx) (s : State) : Host.Outcome State Fault Refusal :=
  writeBack ra (wrap32 ((s.reg ra).toInt * (s.reg rb).toInt)) s

/-- `DIV(ra, rb)`: DivideByZero on a zero divisor, else the quotient truncated toward zero; `-2^31 / -1` wraps
(41_arithmetic.md R124, R125). -/
def execDiv (ra rb : RegIdx) (s : State) : Host.Outcome State Fault Refusal :=
  if (s.reg rb).toInt = 0 then takeFault .divideByZero s
  else writeBack ra (wrap32 (Int.tdiv (s.reg ra).toInt (s.reg rb).toInt)) s

end Sys2Proof.Machine
end

