-- ==== Sys2Proof/Machine/Jumps.lean ====
section
/-! DEFINITION. The nine jumps (43_jumps.md): the target is absolute and is not checked in the jump's own step (R151). -/

namespace Sys2Proof.Machine

/-- `JMP(t)` (43_jumps.md R141). -/
def execJmp (t : Word) (s : State) : Host.Outcome State Fault Refusal := redirect t s

/-- `JZ(t)` (43_jumps.md R142). -/
def execJz (t : Word) (s : State) : Host.Outcome State Fault Refusal := branch (condZero s) t s

/-- `JNZ(t)` (43_jumps.md R143). -/
def execJnz (t : Word) (s : State) : Host.Outcome State Fault Refusal := branch (condNotZero s) t s

/-- `JE(t)` (43_jumps.md R144). -/
def execJe (t : Word) (s : State) : Host.Outcome State Fault Refusal := branch (condEqual s) t s

/-- `JNE(t)` (43_jumps.md R145). -/
def execJne (t : Word) (s : State) : Host.Outcome State Fault Refusal := branch (condNotEqual s) t s

/-- `JL(t)` (43_jumps.md R146). -/
def execJl (t : Word) (s : State) : Host.Outcome State Fault Refusal := branch (condLess s) t s

/-- `JLE(t)` (43_jumps.md R147). -/
def execJle (t : Word) (s : State) : Host.Outcome State Fault Refusal := branch (condLessEqual s) t s

/-- `JG(t)` (43_jumps.md R148). -/
def execJg (t : Word) (s : State) : Host.Outcome State Fault Refusal := branch (condGreater s) t s

/-- `JGE(t)` (43_jumps.md R149). -/
def execJge (t : Word) (s : State) : Host.Outcome State Fault Refusal := branch (condGreaterEqual s) t s

end Sys2Proof.Machine
end

