-- ==== Sys2Proof/Machine/MoveCompare.lean ====
section
/-! DEFINITION. MOV and CMP (42_move_compare.md). -/

namespace Sys2Proof.Machine

/-- `MOV(ra, rb)` (42_move_compare.md R130). -/
def execMov (ra rb : RegIdx) (s : State) : Host.Outcome State Fault Refusal := writeBack ra (s.reg rb) s

/-- `CMP(ra, rb)`: both operands are read, then R0 alone is written (42_move_compare.md R131, R132). -/
def execCmp (ra rb : RegIdx) (s : State) : Host.Outcome State Fault Refusal :=
  writeBack flagReg (threeWay (s.reg ra) (s.reg rb)) s

end Sys2Proof.Machine
end

