-- ==== Sys2Proof/Machine/StackCall.lean ====
section
/-! DEFINITION. PUSH, POP, CALL, RET (44_stack_call.md). -/

namespace Sys2Proof.Machine

/-- `PUSH(ra)`: StackOverflow on a full finite stack (44_stack_call.md R160). -/
def execPush (ra : RegIdx) (s : State) : Host.Outcome State Fault Refusal :=
  if s.stackFull then takeFault .stackOverflow s else sequential (s.push (s.reg ra))

/-- `POP(ra)`: StackUnderflow on an empty stack (44_stack_call.md R161). -/
def execPop (ra : RegIdx) (s : State) : Host.Outcome State Fault Refusal :=
  match s.pop with
  | none => takeFault .stackUnderflow s
  | some (v, s') => writeBack ra v s'

/-- `CALL(t)`: pushes the return address `wrap32(pc0 + 1)` and redirects (44_stack_call.md R162, 90_conflicts.md C1). -/
def execCall (t : Word) (s : State) : Host.Outcome State Fault Refusal :=
  if s.stackFull then takeFault .stackOverflow s else redirect t (s.push (wrap32 (s.pc.toInt + 1)))

/-- `RET`: pops into `pc`, a redirect with no increment (44_stack_call.md R163). -/
def execRet (s : State) : Host.Outcome State Fault Refusal :=
  match s.pop with
  | none => takeFault .stackUnderflow s
  | some (v, s') => redirect v s'

end Sys2Proof.Machine
end

