-- ==== Sys2Proof/Machine/System.lean ====
section
/-! DEFINITION. HLT, NOP, TRAP (45_system_trap.md). -/

namespace Sys2Proof.Machine

/-- `HLT`: no Advance, the run state becomes `Halted` (45_system_trap.md R170, 90_conflicts.md C2). -/
def execHlt (s : State) : Host.Outcome State Fault Refusal := .next (s.retire .halt)

/-- `NOP` (45_system_trap.md R171). -/
def execNop (s : State) : Host.Outcome State Fault Refusal := sequential s

/-- `TRAP(n)`: TrapError out of range; else the handler is invoked and, once it has completed, `n` is logged and the step
advances (45_system_trap.md R172). A handler that never completes leaves the machine stuck in this step (R173; log 6). -/
def execTrap (n : Word) (s : State) : Host.Outcome State Fault Refusal :=
  match trapIndex n with
  | none => takeFault .trapError s
  | some k => if s.handlerCompletes k then sequential (s.logTrap k) else .fault (.trapHandlerNeverCompletes k)

end Sys2Proof.Machine
end

