-- ==== Sys2Proof/Machine/Step.lean ====
section
/-! DEFINITION. One step: Fetch, Decode, Execute with Advance and Halt (40_execution_cycle.md R100), and where a word
is placed to be fetched next. -/

namespace Sys2Proof.Machine

/-- One step (40_execution_cycle.md R100). It is enabled only in `Running`; in `Ready`, `Halted` and `Faulted` no step
exists and the model stops by name (R109; log 5). Fetch and Decode faults are taken as the spec says
(60_exceptions.md R181, R182, R190). -/
def step (s : State) : Host.Outcome State Fault Refusal :=
  match s.runState with
  | .ready => .fault .notStarted
  | .halted => .fault .halted
  | .faulted => .fault .faulted
  | .running =>
    match s.fetch with
    | none => takeFault .fetchOutOfBounds s
    | some w =>
      match decode w with
      | .error _ => takeFault .decodeError s
      | .ok i => exec i s

/-- `s` with the instruction of bits `w` (those at or above `nbits` zero) where the next step fetches, and `Running`
(log 2). -/
def State.withFetchWord (s : State) (nbits w : Nat) : State := s.placeNext (BitVec.ofNat 64 (w % 2 ^ nbits))

end Sys2Proof.Machine
end

