-- ==== Sys2Proof/Machine/HostPort.lean ====
section
/-! DEFINITION. The host's side of the block: the Memory, control and status ports (10_state.md R40, 20_memory.md R52,
R54, 70_reset_and_hazards.md R220 to R224). The host acts between steps, never inside one (log 3). -/

namespace Sys2Proof.Machine

/-- What the host can ask of the block (10_state.md R40, 70_reset_and_hazards.md R222). -/
inductive HostCommand where
  /-- The reset event, in any run state (70_reset_and_hazards.md R220). -/
  | reset
  /-- Starts the loop, in `Ready` (10_state.md R33). -/
  | start
  /-- Register preload `x[i] <- v`, in `Ready` (10_state.md R40). -/
  | preload (i : RegIdx) (v : Word)
  /-- The loader supplies the Program, in `Ready` (70_reset_and_hazards.md R222). -/
  | loadProgram (ws : List InstrWord)
  /-- `MemWrite(a, 1, v)`, in `Ready` (20_memory.md R52, R54). -/
  | memWrite (a : Int) (v : Word)
  /-- The loader writes each instruction's opcode code into Memory at its index, in `Ready` (20_memory.md R52). It mirrors
  the Program held at that moment: DESIGN CHOICE (log 13), R222 leaves open what a mirror before the load writes. -/
  | mirrorOpcodes
deriving DecidableEq, Repr

/-- Memory with cell `i` holding the zero-extended opcode code of the word at index `i`, for the words `ws` at the
indices from `i` on that have a cell (20_memory.md R52, 90_conflicts.md C12). -/
def mirrorFrom (memSize : Nat) : List InstrWord → Nat → Memory → Memory
  | [], _, m => m
  | w :: ws, i, m =>
    mirrorFrom memSize ws (i + 1) (if i < memSize then m.write i ((opcodeField w).zeroExtend 32) else m)

/-- The reset event: every piece of state takes its reset value; the Program, the Trap Table and the parameters are kept
(70_reset_and_hazards.md R220, 10_state.md R42). -/
def State.hostReset (s : State) : State := State.resetWith s.program s.trapTable s.memSize s.stackCapacity

/-- A command that is accepted only in `Ready` (10_state.md R40). -/
def inReady (s : State) (r : Option State) : Option State := if s.runState = .ready then r else none

/-- The state after the host's command; `none` when the block does not accept it, and then nothing changes (log 7).
A Program longer than `2^31 - 1` words is not accepted (20_memory.md R51). Program load, Memory writes, mirror and
preload are accepted in any order (70_reset_and_hazards.md R222). DESIGN CHOICE (log 13): a mirror writes the codes of the
Program held when it is given, so one given before the load does not mirror the Program loaded after it. -/
def hostAct (c : HostCommand) (s : State) : Option State :=
  match c with
  | .reset => some s.hostReset
  | .start => inReady s (some { s with runState := .running })
  | .preload i v => inReady s (some (s.setReg i v))
  | .loadProgram ws => inReady s (if ws.length ≤ Config.maxProgLen then some { s with program := ws } else none)
  | .memWrite a v => inReady s (s.memWrite a v)
  | .mirrorOpcodes => inReady s (some { s with memory := mirrorFrom s.memSize s.program 0 s.memory })

/-- `run_state` on the status port (10_state.md R33). -/
def RunState.code : RunState → Nat
  | .ready => 0
  | .running => 1
  | .halted => 2
  | .faulted => 3

/-- `fault_kind` on the status port (10_state.md R34, 60_exceptions.md R180 to R186). -/
def FaultKind.code : FaultKind → Nat
  | .noFault => 0
  | .decodeError => 1
  | .fetchOutOfBounds => 2
  | .divideByZero => 3
  | .stackUnderflow => 4
  | .trapError => 5
  | .stackOverflow => 6

/-- What the status port shows in every run state (10_state.md R40). -/
structure Status where
  runState : Nat
  faultKind : Nat
  faultPc : Word
deriving DecidableEq, Repr

/-- The status port (10_state.md R40). -/
def hostStatus (s : State) : Status := ⟨s.runState.code, s.faultKind.code, s.faultPc⟩

/-- `Halted` or `Faulted` (40_execution_cycle.md R109). -/
def State.terminal (s : State) : Bool := s.runState = .halted || s.runState = .faulted

/-- The host's read of a register, in the terminal states (10_state.md R40). -/
def hostReadReg (s : State) (i : RegIdx) : Option Word := if s.terminal then some (s.reg i) else none

/-- The host's read of `depth`, in the terminal states (10_state.md R40). -/
def hostReadDepth (s : State) : Option Nat := if s.terminal then some s.stack.length else none

/-- The host's read of the stack, top first, at the end of a run (40_execution_cycle.md R110). -/
def hostReadStack (s : State) : Option (List Word) := if s.terminal then some s.stack else none

/-- The host's read of `trap_log`, at the end of a run (40_execution_cycle.md R110, 70_reset_and_hazards.md R224). -/
def hostReadTrapLog (s : State) : Option (List TrapNumber) := if s.terminal then some s.trapLog else none

/-- `MemRead(a, 1)` on the Memory port, in `Ready` and in the terminal states; no value out of range (10_state.md R40,
20_memory.md R54). -/
def hostMemRead (s : State) (a : Int) : Option Word := if s.runState = .running then none else s.memRead a

end Sys2Proof.Machine
end

