-- ==== Sys2Proof/Safety.lean ====
section
/-! DEFINITION. What counts as a sound state, a reachable state, and an end of a run, in the terms the claims use. -/

namespace Sys2Proof.Machine

/-- What holds of every state the machine can be in, by the spec. -/
structure State.Inv (s : State) : Prop where
  /-- Memory is in its canonical form. -/
  memoryCanonical : s.memory.wf = true
  /-- Only the cells `0 .. MEM_SIZE - 1` exist (20_memory.md R52). -/
  memoryWithin : s.memory.within s.memSize = true
  /-- `PROG_LEN <= 2^31 - 1` (20_memory.md R51). -/
  programLength : s.program.length ≤ Config.maxProgLen
  /-- `depth` never exceeds a finite `STACK_CAPACITY` (10_state.md R31). -/
  stackWithin : ∀ c, s.stackCapacity = some c → s.stack.length ≤ c
  /-- Outside `Faulted` the fault record is clear (10_state.md R34). -/
  recordClear : s.runState ≠ .faulted → s.faultKind = .noFault ∧ s.faultPc = 0
  /-- In `Faulted` the record names a kind, and R15 still holds the pc it names (60_exceptions.md R190). -/
  recordSet : s.runState = .faulted → s.faultKind ≠ .noFault ∧ s.faultPc = s.pc
  /-- `StackOverflow` exists only with a finite `STACK_CAPACITY` (60_exceptions.md R186). -/
  overflowFinite : s.faultKind = .stackOverflow → s.stackCapacity ≠ none
  /-- In `Ready` nothing has executed yet (10_state.md R33, R42). -/
  readyFresh : s.runState = .ready → s.stack = [] ∧ s.trapLog = []

/-- A state the block can be in: right after reset under some configuration, or after an accepted host command or a step
from such a state (70_reset_and_hazards.md R220 to R224, 40_execution_cycle.md R100). -/
inductive Reachable : State → Prop where
  | reset (program : List InstrWord) (trapTable : Vector Handler 16) (memSize : Nat) (stackCapacity : Option Nat)
      (h : program.length ≤ Config.maxProgLen) :
      Reachable (State.resetWith program trapTable memSize stackCapacity)
  | host (c : HostCommand) (s t : State) (hs : Reachable s) (h : hostAct c s = some t) : Reachable t
  | step (s t : State) (hs : Reachable s) (h : step s = .next t) : Reachable t

/-- `k` steps lead from `s` to `t`. -/
def RunsTo (k : Nat) (s t : State) : Prop := Sys2Proof.core.run k s = .next t

/-- Normal termination: the run ends in `Halted` (40_execution_cycle.md R110). -/
def HaltsNormally (s : State) : Prop := ∃ k t, RunsTo k s t ∧ t.runState = .halted

/-- The run ends in `Faulted` with kind `K` (40_execution_cycle.md R110). -/
def EndsInFault (s : State) (K : FaultKind) : Prop := ∃ k t, RunsTo k s t ∧ t.runState = .faulted ∧ t.faultKind = K

/-- A safe run: none of the first `k` steps takes a fault. -/
def SafeFor (k : Nat) (s : State) : Prop := ∀ j t, j ≤ k → RunsTo j s t → t.runState ≠ .faulted

end Sys2Proof.Machine
end

