-- ==== Sys2Proof/WellFormed.lean ====
section
/-! DEFINITION. When a structure-form instruction is valid: known opcode, operand count, operand kinds, register indices
in `0 .. 15`, immediates that are an `Int32` (30_encoding.md R79, R80, R71, R83). Every `Instr` is valid by its types. -/

namespace Sys2Proof

/-- The opcode is in the table (30_encoding.md R79). -/
def DecodedInstruction.opcodeKnown (d : DecodedInstruction) : Bool := (Opcode.ofCode d.opcode).isSome

/-- The operand count is the opcode's (30_encoding.md R80); an unknown opcode has none. -/
def DecodedInstruction.operandCountOk (d : DecodedInstruction) : Bool :=
  match Opcode.ofCode d.opcode with
  | none => false
  | some op => d.operands.length == op.arity

/-- An operand is of the kind its format takes: an immediate in format `I`, a register otherwise (30_encoding.md R71). -/
def Operand.kindOk (f : Format) : Operand → Bool
  | .reg _ => f != .I
  | .imm _ => f == .I

/-- Every operand is of the kind the opcode's format takes (30_encoding.md R71). -/
def DecodedInstruction.operandKindsOk (d : DecodedInstruction) : Bool :=
  match Opcode.ofCode d.opcode with
  | none => false
  | some op => d.operands.all (Operand.kindOk op.format)

/-- A register identifier is an index `0 .. 15` (10_state.md R21, 30_encoding.md R83). -/
def Operand.registerOk : Operand → Bool
  | .reg i => i < Config.numRegs
  | .imm _ => true

/-- An immediate is an `Int32` (30_encoding.md R74, R83). -/
def Operand.immediateOk : Operand → Bool
  | .reg _ => true
  | .imm v => -2147483648 ≤ v && v ≤ 2147483647

/-- A valid DecodedInstruction: "known opcode, operand count equal to its arity, register indices in 0 .. 15, immediate
an Int32" (30_encoding.md R83), each operand of its kind (R71). -/
def DecodedInstruction.wellFormed (d : DecodedInstruction) : Bool :=
  d.opcodeKnown && d.operandCountOk && d.operandKindsOk && d.operands.all Operand.registerOk &&
    d.operands.all Operand.immediateOk

/-- An instruction is well-formed when its structure form is valid (30_encoding.md R83). -/
def Instr.wellFormed (i : Instr) : Bool := i.toDecoded.wellFormed

end Sys2Proof
end

