-- ==== Sys2Proof/Certificates/Slice0/Obligations.lean ====
section
/-! DEFINITION. The statements for the provers. `Sys2Proof.Claims` holds the words they are written in. -/

namespace Sys2Proof.Claims

open Sys2Proof.Machine

/-! ### The words of the statements -/

/-- `v = wrap32(z)`, as 00_scope.md R8 says it: `v` is the `Int32` congruent to `z` modulo `2^32`. -/
def IsWrapOf (v : Word) (z : Int) : Prop := (4294967296 : Int) ∣ v.toInt - z

/-- `q` is the quotient of `a` by `b` rounded toward zero: the remainder is smaller than `b` and has the sign of `a`
(41_arithmetic.md R125). -/
def IsTruncatedQuotient (a b q : Int) : Prop := ∃ r, a = q * b + r ∧ r.natAbs < b.natAbs ∧ 0 ≤ r * a

/-- The Program, the Trap Table and the parameters are as before. -/
def SameConfiguration (s t : State) : Prop :=
  t.program = s.program ∧ t.trapTable = s.trapTable ∧ t.memSize = s.memSize ∧ t.stackCapacity = s.stackCapacity

/-- Every cell of Memory reads as before. -/
def SameMemory (s t : State) : Prop := ∀ a : Int, t.memRead a = s.memRead a

/-- The run state and the fault record are as before. -/
def SameRunRecord (s t : State) : Prop :=
  t.runState = s.runState ∧ t.faultKind = s.faultKind ∧ t.faultPc = s.faultPc

/-- Everything but the registers, the stack, the trap log and the run record is as before. -/
def SameStores (s t : State) : Prop := SameConfiguration s t ∧ SameMemory s t

/-- Everything but the registers is as before. -/
def SameBeyondRegisters (s t : State) : Prop :=
  t.stack = s.stack ∧ t.trapLog = s.trapLog ∧ SameRunRecord s t ∧ SameStores s t

/-- The registers after `x[d] <- v` and Advance: R15 as a destination takes `v` and is then incremented
(10_state.md R28). -/
def WritesThenAdvances (s t : State) (d : RegIdx) (v : Word) : Prop :=
  (∀ j, j ≠ d → j ≠ 15 → t.reg j = s.reg j) ∧
    (d ≠ 15 → t.reg d = v ∧ IsWrapOf (t.reg 15) ((s.reg 15).toInt + 1)) ∧
    (d = 15 → IsWrapOf (t.reg 15) (v.toInt + 1))

/-- The pc becomes `p` and no other register changes. -/
def OnlyPcBecomes (s t : State) (p : Word) : Prop := t.reg 15 = p ∧ ∀ j, j ≠ 15 → t.reg j = s.reg j

/-- The pc advances by one and no other register changes. -/
def OnlyAdvances (s t : State) : Prop :=
  IsWrapOf (t.reg 15) ((s.reg 15).toInt + 1) ∧ ∀ j, j ≠ 15 → t.reg j = s.reg j

/-- The jump to `t` is taken when `P` holds and falls through otherwise; nothing but the pc changes. -/
def JumpsWhen (P : Prop) (t : Word) (s u : State) : Prop :=
  (P → OnlyPcBecomes s u t) ∧ (¬P → OnlyAdvances s u) ∧ SameBeyondRegisters s u

/-- Fault entry of kind `K`: the record is written, the run state is `Faulted`, nothing else changes
(60_exceptions.md R190). -/
def IsFaultEntry (K : FaultKind) (s t : State) : Prop :=
  t.faultKind = K ∧ t.faultPc = s.reg 15 ∧ t.runState = .faulted ∧ (∀ j, t.reg j = s.reg j) ∧ t.stack = s.stack ∧
    t.trapLog = s.trapLog ∧ SameStores s t

/-- The instruction the next step would execute. -/
def Executes (s : State) (i : Instr) : Prop := ∃ w, s.fetch = some w ∧ decode w = .ok i

/-- The word of format `RR` with the given first 24 bits: `ra` and `rb` are its last two hexadecimal digits. -/
def wordRR (head : InstrWord) (ra rb : RegIdx) : InstrWord := head ||| BitVec.ofNat 64 (16 * ra.val + rb.val)

/-- The word of format `R` with the given first 24 bits: `ra` is its last hexadecimal digit. -/
def wordR (head : InstrWord) (ra : RegIdx) : InstrWord := head ||| BitVec.ofNat 64 ra.val

/-- The word of format `I` with the given first 24 bits: `t` is its last eight hexadecimal digits. -/
def wordI (head : InstrWord) (t : Word) : InstrWord := head ||| BitVec.ofNat 64 t.toNat

/-- The register an instruction names as its destination (30_encoding.md R76). -/
def destination : Instr → Option RegIdx
  | .add ra _ => some ra
  | .sub ra _ => some ra
  | .mul ra _ => some ra
  | .div ra _ => some ra
  | .mov ra _ => some ra
  | .pop ra => some ra
  | .jmp _ => none
  | .jz _ => none
  | .jnz _ => none
  | .je _ => none
  | .jne _ => none
  | .jl _ => none
  | .jle _ => none
  | .jg _ => none
  | .jge _ => none
  | .cmp _ _ => none
  | .push _ => none
  | .call _ => none
  | .ret => none
  | .hlt => none
  | .nop => none
  | .trap _ => none

/-- When a step raises a fault of each kind (60_exceptions.md R181 to R187). -/
def FaultCause (s : State) : FaultKind → Prop
  | .noFault => False
  | .fetchOutOfBounds => (s.reg 15).toInt < 0 ∨ (s.program.length : Int) ≤ (s.reg 15).toInt
  | .decodeError => ∃ w e, s.fetch = some w ∧ decode w = .error e
  | .divideByZero => ∃ ra rb, Executes s (.div ra rb) ∧ (s.reg rb).toInt = 0
  | .stackUnderflow => ((∃ ra, Executes s (.pop ra)) ∨ Executes s .ret) ∧ s.stack = []
  | .trapError => ∃ n, Executes s (.trap n) ∧ (n.toInt < 0 ∨ 16 ≤ n.toInt)
  | .stackOverflow =>
    ((∃ ra, Executes s (.push ra)) ∨ ∃ t, Executes s (.call t)) ∧ s.stackCapacity = some s.stack.length

/-- The pc after an instruction that completed without a fault (10_state.md R26), with R15 as a destination written
first and then incremented (R28). -/
def PcRule (s t : State) : Instr → Prop
  | .jmp x => t.pc = x
  | .jz x => t.pc = if s.reg 0 = 0 then x else s.pc + 1
  | .jnz x => t.pc = if s.reg 0 ≠ 0 then x else s.pc + 1
  | .je x => t.pc = if s.reg 0 = s.reg 1 then x else s.pc + 1
  | .jne x => t.pc = if s.reg 0 ≠ s.reg 1 then x else s.pc + 1
  | .jl x => t.pc = if (s.reg 0).slt (s.reg 1) then x else s.pc + 1
  | .jle x => t.pc = if (s.reg 0).sle (s.reg 1) then x else s.pc + 1
  | .jg x => t.pc = if (s.reg 1).slt (s.reg 0) then x else s.pc + 1
  | .jge x => t.pc = if (s.reg 1).sle (s.reg 0) then x else s.pc + 1
  | .call x => t.pc = x
  | .ret => ∃ rest, s.stack = t.pc :: rest
  | .hlt => t.pc = s.pc
  | .add ra rb => t.pc = (if ra = 15 then s.pc + s.reg rb else s.pc) + 1
  | .sub ra rb => t.pc = (if ra = 15 then s.pc - s.reg rb else s.pc) + 1
  | .mul ra rb => t.pc = (if ra = 15 then s.pc * s.reg rb else s.pc) + 1
  | .div ra rb => t.pc = (if ra = 15 then (s.pc).sdiv (s.reg rb) else s.pc) + 1
  | .mov ra rb => t.pc = (if ra = 15 then s.reg rb else s.pc) + 1
  | .pop ra => ∃ v rest, s.stack = v :: rest ∧ t.pc = (if ra = 15 then v else s.pc) + 1
  | .cmp _ _ => t.pc = s.pc + 1
  | .push _ => t.pc = s.pc + 1
  | .nop => t.pc = s.pc + 1
  | .trap _ => t.pc = s.pc + 1

/-- An outcome with Memory replaced in its next state. -/
def withMemory (m : Memory) : Host.Outcome State Fault Refusal → Host.Outcome State Fault Refusal
  | .next t => .next { t with memory := m }
  | .fault r => .fault r
  | .refused r => .refused r

end Sys2Proof.Claims

open Sys2Proof Sys2Proof.Machine Sys2Proof.Claims

/-! ### Encoding -/

/-- Decode and encode agree, for every instruction with every operand value (30_encoding.md section 4, `Decode(Encode(d))
= d`; an inference the spec marks as its own). -/
def Obligations.DecodeOfEncodeIsTheInstruction : Prop :=
  ∀ i : Instr, i.wellFormed = true → decode (encode i) = .ok i

/-- Encoding a decoded word gives the word with its ignored bits cleared (30_encoding.md section 4). -/
def Obligations.EncodeOfDecodeClearsIgnoredBits : Prop :=
  ∀ (w : InstrWord) (i : Instr), decode w = .ok i → encode i = w &&& i.opcode.format.usedBits

/-- The Instruction Set Table, row by row, and the format of each row, which says the kinds of its operands
(30_encoding.md R76). -/
def Obligations.InstructionSetTableRows : Prop :=
  Opcode.all.map Opcode.format =
    [.RR, .RR, .RR, .RR, .RR, .I, .I, .I, .I, .I, .I, .I, .I, .I, .RR, .R, .R, .I, .Z, .Z, .Z, .I] ∧
  instructionSetTable =
    [⟨"ADD", 0x0001, 2, 0x0001020000000000, 0xFFFFFF0000000000⟩,
     ⟨"SUB", 0x0002, 2, 0x0002020000000000, 0xFFFFFF0000000000⟩,
     ⟨"MUL", 0x0003, 2, 0x0003020000000000, 0xFFFFFF0000000000⟩,
     ⟨"DIV", 0x0004, 2, 0x0004020000000000, 0xFFFFFF0000000000⟩,
     ⟨"MOV", 0x0005, 2, 0x0005020000000000, 0xFFFFFF0000000000⟩,
     ⟨"JMP", 0x0006, 1, 0x0006010000000000, 0xFFFFFF0000000000⟩,
     ⟨"JZ", 0x0007, 1, 0x0007010000000000, 0xFFFFFF0000000000⟩,
     ⟨"JNZ", 0x0008, 1, 0x0008010000000000, 0xFFFFFF0000000000⟩,
     ⟨"JE", 0x0009, 1, 0x0009010000000000, 0xFFFFFF0000000000⟩,
     ⟨"JNE", 0x000A, 1, 0x000A010000000000, 0xFFFFFF0000000000⟩,
     ⟨"JL", 0x000B, 1, 0x000B010000000000, 0xFFFFFF0000000000⟩,
     ⟨"JLE", 0x000C, 1, 0x000C010000000000, 0xFFFFFF0000000000⟩,
     ⟨"JG", 0x000D, 1, 0x000D010000000000, 0xFFFFFF0000000000⟩,
     ⟨"JGE", 0x000E, 1, 0x000E010000000000, 0xFFFFFF0000000000⟩,
     ⟨"CMP", 0x000F, 2, 0x000F020000000000, 0xFFFFFF0000000000⟩,
     ⟨"PUSH", 0x0010, 1, 0x0010010000000000, 0xFFFFFF0000000000⟩,
     ⟨"POP", 0x0011, 1, 0x0011010000000000, 0xFFFFFF0000000000⟩,
     ⟨"CALL", 0x0012, 1, 0x0012010000000000, 0xFFFFFF0000000000⟩,
     ⟨"RET", 0x0013, 0, 0x0013000000000000, 0xFFFFFF0000000000⟩,
     ⟨"HLT", 0x0014, 0, 0x0014000000000000, 0xFFFFFF0000000000⟩,
     ⟨"NOP", 0x0015, 0, 0x0015000000000000, 0xFFFFFF0000000000⟩,
     ⟨"TRAP", 0x0016, 1, 0x0016010000000000, 0xFFFFFF0000000000⟩]

/-- A word is an instance of a row exactly when `(W AND mask) == match` (30_encoding.md section 3, reading the table; an
inference the spec marks as its own). -/
def Obligations.WordIsAnInstanceOfItsRow : Prop :=
  ∀ (w : InstrWord) (op : Opcode),
    (∃ i, decode w = .ok i ∧ i.opcode = op) ↔ w &&& op.spec.maskBits = op.spec.matchBits

/-- Two words that agree on the bits their format uses decode alike, and the encoder leaves the others 0
(30_encoding.md section 2). -/
def Obligations.IgnoredBitsTakeNoPart : Prop :=
  (∀ (w w' : InstrWord) (op : Opcode), Opcode.ofCode (opcodeField w) = some op →
      w &&& op.format.usedBits = w' &&& op.format.usedBits → decode w = decode w') ∧
    ∀ i : Instr, encode i &&& ~~~i.opcode.format.usedBits = 0

/-- Every opcode value outside `0x0001 .. 0x0016` is rejected whatever the other bits are, and raises DecodeError when
fetched (30_encoding.md R79). -/
def Obligations.UnknownOpcodeIsDecodeError : Prop :=
  ∀ w : InstrWord,
    (decode w = .error .unknownOpcode ↔ (opcodeField w).toNat = 0 ∨ 23 ≤ (opcodeField w).toNat) ∧
      ∀ s : State, s.runState = .running → s.fetch = some w →
        ((opcodeField w).toNat = 0 ∨ 23 ≤ (opcodeField w).toNat) →
        ∃ t, step s = .next t ∧ IsFaultEntry .decodeError s t

/-- A known opcode with any operand count but its own is rejected, in the word form and in the structure form, and raises
DecodeError when fetched (30_encoding.md R80). -/
def Obligations.OperandCountMismatchIsDecodeError : Prop :=
  (∀ (w : InstrWord) (op : Opcode), Opcode.ofCode (opcodeField w) = some op →
      (decode w = .error .operandCount ↔ (nopsField w).toNat ≠ op.arity) ∧
        ∀ s : State, s.runState = .running → s.fetch = some w → (nopsField w).toNat ≠ op.arity →
          ∃ t, step s = .next t ∧ IsFaultEntry .decodeError s t) ∧
    (∀ (d : DecodedInstruction) (op : Opcode), Opcode.ofCode d.opcode = some op → d.operands.length ≠ op.arity →
      ofDecoded d = .error .operandCount) ∧
    ∀ op : Opcode, op.arity < 3

/-- The worked encodings of 30_encoding.md section 6 decode to the instructions they are written for, and its illegal
words are rejected. -/
def Obligations.WorkedEncodingsDecode : Prop :=
  decode 0x0001020000000005 = .ok (.add 0 5) ∧ decode 0x0005020000000001 = .ok (.mov 0 1) ∧
    decode 0x000F020000000023 = .ok (.cmp 2 3) ∧ decode 0x0010010000000005 = .ok (.push 5) ∧
    decode 0x0006010000000006 = .ok (.jmp 6) ∧ decode 0x0012010000000003 = .ok (.call 3) ∧
    decode 0x001601000000000F = .ok (.trap 15) ∧ decode 0x00060100FFFFFFFF = .ok (.jmp (-1)) ∧
    decode 0x0013000000000000 = .ok .ret ∧ decode 0x0014000000000000 = .ok .hlt ∧
    decode 0x0015000000000000 = .ok .nop ∧ decode 0 = .error .unknownOpcode ∧
    decode 0x0017000000000000 = .error .unknownOpcode ∧ decode 0x0001010000000005 = .error .operandCount ∧
    decode 0x0014010000000000 = .error .operandCount

/-- The structure form and the instruction correspond one to one, and the valid structure forms are those WellFormed
names (30_encoding.md section 4; the rejection of an operand of the wrong kind is the model's choice, log 9). -/
def Obligations.StructureFormCorresponds : Prop :=
  (∀ i : Instr, ofDecoded i.toDecoded = .ok i) ∧
    (∀ (d : DecodedInstruction) (i : Instr), ofDecoded d = .ok i → i.toDecoded = d) ∧
    ∀ d : DecodedInstruction, d.wellFormed = true ↔ ∃ i, ofDecoded d = .ok i

/-- Serialised words and cells are little-endian and read back whole (20_memory.md section 3). -/
def Obligations.SerialisationIsLittleEndian : Prop :=
  (∀ w : InstrWord, (wordToBytes w).length = 8 ∧ bytesToWord (wordToBytes w) = some w ∧
      ∀ k < 8, (wordToBytes w)[k]? = some (w.extractLsb' (8 * k) 8)) ∧
    ∀ v : Word, (cellToBytes v).length = 4 ∧ bytesToCell (cellToBytes v) = some v ∧
      ∀ k < 4, (cellToBytes v)[k]? = some (v.extractLsb' (8 * k) 8)

/-! ### The step -/

/-- A step in `Running` executes the instruction that the word at `pc` decodes to; Advance and Halt are part of the
instruction's meaning, so nothing stands around `exec` (40_execution_cycle.md section 1). -/
def Obligations.StepExecutesTheDecodedInstruction : Prop :=
  ∀ (s : State) (w : InstrWord) (i : Instr),
    s.runState = .running → 0 ≤ (s.reg 15).toInt → s.program[(s.reg 15).toInt.toNat]? = some w → decode w = .ok i →
      i.wellFormed = true → step s = exec i s

/-- Fetch selects entry `x[15]` of the Program, read signed, exactly when it is in range; otherwise the step raises
FetchOutOfBounds with the out-of-range value (40_execution_cycle.md R101, 20_memory.md R53). -/
def Obligations.FetchIsInBoundsOrFaults : Prop :=
  ∀ s : State, s.runState = .running →
    (∀ w, s.fetch = some w ↔
        ∃ i : Nat, (s.reg 15).toInt = (i : Int) ∧ i < s.program.length ∧ s.program[i]? = some w) ∧
      (s.fetch = none ↔ (s.reg 15).toInt < 0 ∨ (s.program.length : Int) ≤ (s.reg 15).toInt) ∧
      ((s.reg 15).toInt < 0 ∨ (s.program.length : Int) ≤ (s.reg 15).toInt →
        ∃ t, step s = .next t ∧ IsFaultEntry .fetchOutOfBounds s t)

/-- No step is taken in `Ready`, `Halted` or `Faulted`; a terminal state is left by the host's reset alone, and there the
host reads registers, stack, Memory, trap log and fault record as the last step left them (40_execution_cycle.md section
3; 10_state.md R33 and R40). That a command other than reset is not accepted there is the model's choice, log 7; which
reads are admitted is log 11. -/
def Obligations.NoStepOutsideRunning : Prop :=
  (∀ s t : State, step s = .next t → s.runState = .running) ∧
    ∀ s : State, (s.runState = .halted ∨ s.runState = .faulted) →
      (∀ (t : State) (c : HostCommand), hostAct c s = some t → c = .reset) ∧
        (∀ j, hostReadReg s j = some (s.reg j)) ∧ hostReadStack s = some s.stack ∧
        hostReadDepth s = some s.stack.length ∧ hostReadTrapLog s = some s.trapLog ∧
        (∀ a, hostMemRead s a = s.memRead a) ∧ (hostStatus s).faultPc = s.faultPc

/-- While `Running`, and with handlers that complete, a step always answers a next state (40_execution_cycle.md
section 3; that a handler completes is the model's configuration, log 6). -/
def Obligations.RunningStepAnswersNext : Prop :=
  ∀ s : State, s.runState = .running → (∀ n, s.trapTable.get n = .diagnostic) → ∃ t, step s = .next t

/-- Fault entry records the kind whose cause holds, the pc and the run state, and changes nothing else, whatever the
fault (60_exceptions.md R190). -/
def Obligations.FaultEntryChangesTheRecordAlone : Prop :=
  ∀ s t : State, step s = .next t → t.runState = .faulted →
    FaultCause s t.faultKind ∧ t = { s with faultKind := t.faultKind, faultPc := s.reg 15, runState := .faulted }

/-- A step raises a fault of a kind exactly when that kind's cause holds; the causes also fix the priority
(60_exceptions.md sections 1 and 2; an inference the spec marks as its own). -/
def Obligations.EachFaultHasExactlyItsCause : Prop :=
  ∀ (s : State) (K : FaultKind), s.runState = .running →
    ((∃ t, step s = .next t ∧ t.runState = .faulted ∧ t.faultKind = K) ↔ FaultCause s K)

/-- HLT alone reaches `Halted`, a fault alone reaches `Faulted`, every other step stays `Running`
(10_state.md section 5). -/
def Obligations.RunStateMovesOnlyByHltOrFault : Prop :=
  ∀ s t : State, step s = .next t →
    (t.runState = .halted ↔ Executes s .hlt) ∧ (t.runState = .faulted ↔ ∃ K, FaultCause s K) ∧
      t.runState ≠ .ready

/-- No step changes the Program, the Trap Table, a parameter or Memory (20_memory.md section 8, 10_state.md section
6). -/
def Obligations.StepChangesNoStore : Prop :=
  ∀ s t : State, step s = .next t → SameStores s t ∧ t.memory = s.memory

/-- Memory's contents have no effect on a step: the step of a state with any other Memory is the same step
(20_memory.md section 1). -/
def Obligations.MemoryContentsHaveNoEffect : Prop :=
  ∀ (s : State) (m : Memory), step { s with memory := m } = withMemory m (step s)

/-- The stack changes only by the push of PUSH or CALL and the pop of POP or RET (10_state.md section 4). -/
def Obligations.StackChangesByItsFourInstructions : Prop :=
  ∀ s t : State, step s = .next t →
    t.stack = s.stack ∨ (∃ ra, Executes s (.push ra) ∧ t.stack = s.reg ra :: s.stack) ∨
      (∃ x, Executes s (.call x) ∧ t.stack = (s.reg 15 + 1) :: s.stack) ∨
      ((∃ ra, Executes s (.pop ra)) ∨ Executes s .ret) ∧ ∃ v, s.stack = v :: t.stack

/-- The trap log grows by one trap number, in range, by TRAP alone (10_state.md section 6). -/
def Obligations.TrapLogGrowsByTrapAlone : Prop :=
  ∀ s t : State, step s = .next t →
    t.trapLog = s.trapLog ∨
      ∃ (n : Word) (k : TrapNumber), Executes s (.trap n) ∧ n.toInt = (k.val : Int) ∧ t.trapLog = s.trapLog ++ [k]

/-- A register changes only as R15, as the destination an instruction names, or as R0 by CMP (10_state.md section 1). -/
def Obligations.RegistersChangeOnlyWhereNamed : Prop :=
  ∀ (s t : State) (j : RegIdx), step s = .next t → t.reg j ≠ s.reg j →
    j = 15 ∨ (∃ i, Executes s i ∧ destination i = some j) ∨ (j = 0 ∧ ∃ ra rb, Executes s (.cmp ra rb))

/-- How each instruction changes the pc, in one place; a step that faults leaves it unchanged (10_state.md R26). -/
def Obligations.PcEffectOfEveryInstruction : Prop :=
  ∀ (i : Instr) (s t : State), s.runState = .running → exec i s = .next t →
    (t.runState = .faulted → t.pc = s.pc) ∧ (t.runState ≠ .faulted → PcRule s t i)

/-! ### Invariants -/

/-- The invariant holds right after reset (10_state.md section 10; the reset configuration is the model's choice, log 1
and 2). -/
def Obligations.ResetMeetsTheInvariant : Prop := State.reset.Inv

/-- Every step keeps the invariant: Memory canonical and in range, the stack within its capacity, the fault record in
step with the run state. -/
def Obligations.StepKeepsTheInvariant : Prop := ∀ s t : State, s.Inv → step s = .next t → t.Inv

/-- Every accepted host command keeps the invariant. -/
def Obligations.HostCommandKeepsTheInvariant : Prop :=
  ∀ (c : HostCommand) (s t : State), s.Inv → hostAct c s = some t → t.Inv

/-- Every state reached from a reset by host commands and steps meets the invariant. -/
def Obligations.ReachableStatesMeetTheInvariant : Prop := ∀ s : State, Reachable s → s.Inv

/-! ### Arithmetic, move, compare -/

/-- ADD (41_arithmetic.md R121). -/
def Obligations.AddWritesTheWrappedSum : Prop :=
  ∀ (ra rb : RegIdx) (s : State),
    decode (wordRR 0x0001020000000000 ra rb) = .ok (.add ra rb) ∧
      ∃ v t, exec (.add ra rb) s = .next t ∧ IsWrapOf v ((s.reg ra).toInt + (s.reg rb).toInt) ∧
        WritesThenAdvances s t ra v ∧ SameBeyondRegisters s t

/-- SUB (41_arithmetic.md R122). -/
def Obligations.SubWritesTheWrappedDifference : Prop :=
  ∀ (ra rb : RegIdx) (s : State),
    decode (wordRR 0x0002020000000000 ra rb) = .ok (.sub ra rb) ∧
      ∃ v t, exec (.sub ra rb) s = .next t ∧ IsWrapOf v ((s.reg ra).toInt - (s.reg rb).toInt) ∧
        WritesThenAdvances s t ra v ∧ SameBeyondRegisters s t

/-- MUL (41_arithmetic.md R123). -/
def Obligations.MulWritesTheWrappedProduct : Prop :=
  ∀ (ra rb : RegIdx) (s : State),
    decode (wordRR 0x0003020000000000 ra rb) = .ok (.mul ra rb) ∧
      ∃ v t, exec (.mul ra rb) s = .next t ∧ IsWrapOf v ((s.reg ra).toInt * (s.reg rb).toInt) ∧
        WritesThenAdvances s t ra v ∧ SameBeyondRegisters s t

/-- DIV, by a divisor that is not zero and by one that is (41_arithmetic.md R124; the rounding is the spec's decision
D3). -/
def Obligations.DivTruncatesOrFaults : Prop :=
  ∀ (ra rb : RegIdx) (s : State),
    decode (wordRR 0x0004020000000000 ra rb) = .ok (.div ra rb) ∧
      ((s.reg rb).toInt ≠ 0 →
        ∃ q v t, exec (.div ra rb) s = .next t ∧ IsTruncatedQuotient (s.reg ra).toInt (s.reg rb).toInt q ∧
          IsWrapOf v q ∧ WritesThenAdvances s t ra v ∧ SameBeyondRegisters s t) ∧
      ((s.reg rb).toInt = 0 → ∃ t, exec (.div ra rb) s = .next t ∧ IsFaultEntry .divideByZero s t)

/-- The overflowing quotient `-2^31 / -1` is `-2^31`, with no fault (41_arithmetic.md section 1, decision D3). -/
def Obligations.DivOfMinByMinusOneWraps : Prop :=
  ∀ (ra rb : RegIdx) (s : State), (s.reg ra).toInt = -2147483648 → (s.reg rb).toInt = -1 →
    ∃ t, exec (.div ra rb) s = .next t ∧ t.runState = s.runState ∧ WritesThenAdvances s t ra (s.reg ra) ∧
      SameBeyondRegisters s t

/-- MOV (42_move_compare.md R130). -/
def Obligations.MovCopiesTheSource : Prop :=
  ∀ (ra rb : RegIdx) (s : State),
    decode (wordRR 0x0005020000000000 ra rb) = .ok (.mov ra rb) ∧
      ∃ t, exec (.mov ra rb) s = .next t ∧ WritesThenAdvances s t ra (s.reg rb) ∧ SameBeyondRegisters s t

/-- CMP: R0 becomes -1, 0 or 1 by the signed order of the operands (42_move_compare.md; which sign goes with which order
is the spec's decision D4, taken from general knowledge). -/
def Obligations.CmpSetsTheThreeWayResult : Prop :=
  ∀ (ra rb : RegIdx) (s : State),
    decode (wordRR 0x000F020000000000 ra rb) = .ok (.cmp ra rb) ∧
      ∃ t, exec (.cmp ra rb) s = .next t ∧
        ((s.reg ra).toInt < (s.reg rb).toInt → (t.reg 0).toInt = -1) ∧
        ((s.reg ra).toInt = (s.reg rb).toInt → (t.reg 0).toInt = 0) ∧
        ((s.reg rb).toInt < (s.reg ra).toInt → (t.reg 0).toInt = 1) ∧
        (∀ j, j ≠ 0 → j ≠ 15 → t.reg j = s.reg j) ∧ IsWrapOf (t.reg 15) ((s.reg 15).toInt + 1) ∧
        SameBeyondRegisters s t

/-- `CMP(a,b)` then `CMP(b,a)` gives negated results when neither operand is R0 or R15 (42_move_compare.md; R15 changes
between the two, so it is left out as R0 is). -/
def Obligations.CmpSwappedIsNegated : Prop :=
  ∀ (ra rb : RegIdx) (s : State), ra ≠ 0 → rb ≠ 0 → ra ≠ 15 → rb ≠ 15 →
    ∃ t u, exec (.cmp ra rb) s = .next t ∧ exec (.cmp rb ra) t = .next u ∧ (u.reg 0).toInt = -(t.reg 0).toInt

/-- R15 as an operand: a source reads `pc0`, a destination is written and then incremented (10_state.md R28, decision
D19). -/
def Obligations.R15AsAnOperand : Prop :=
  ∀ (r : RegIdx) (s : State),
    (r ≠ 15 → ∃ t, exec (.mov r 15) s = .next t ∧ t.reg r = s.reg 15) ∧
      (s.stackFull = false → ∃ t, exec (.push 15) s = .next t ∧ t.stack = s.reg 15 :: s.stack) ∧
      (∃ t, exec (.mov 15 r) s = .next t ∧ IsWrapOf (t.reg 15) ((s.reg r).toInt + 1)) ∧
      (∀ v rest, s.stack = v :: rest → ∃ t, exec (.pop 15) s = .next t ∧ IsWrapOf (t.reg 15) (v.toInt + 1)) ∧
      ∃ t, exec (.add 15 r) s = .next t ∧ IsWrapOf (t.reg 15) ((s.reg 15).toInt + (s.reg r).toInt + 1)

/-! ### Jumps -/

/-- JMP (43_jumps.md R141). -/
def Obligations.JmpRedirects : Prop :=
  ∀ (t : Word) (s : State),
    decode (wordI 0x0006010000000000 t) = .ok (.jmp t) ∧
      ∃ u, exec (.jmp t) s = .next u ∧ OnlyPcBecomes s u t ∧ SameBeyondRegisters s u

/-- JZ and JNZ (43_jumps.md R142, R143). -/
def Obligations.JzAndJnzConsultR0 : Prop :=
  ∀ (t : Word) (s : State),
    decode (wordI 0x0007010000000000 t) = .ok (.jz t) ∧ decode (wordI 0x0008010000000000 t) = .ok (.jnz t) ∧
      (∃ u, exec (.jz t) s = .next u ∧ JumpsWhen ((s.reg 0).toInt = 0) t s u) ∧
      ∃ u, exec (.jnz t) s = .next u ∧ JumpsWhen ((s.reg 0).toInt ≠ 0) t s u

/-- JE and JNE (43_jumps.md R144, R145). -/
def Obligations.JeAndJneCompareR0WithR1 : Prop :=
  ∀ (t : Word) (s : State),
    decode (wordI 0x0009010000000000 t) = .ok (.je t) ∧ decode (wordI 0x000A010000000000 t) = .ok (.jne t) ∧
      (∃ u, exec (.je t) s = .next u ∧ JumpsWhen ((s.reg 0).toInt = (s.reg 1).toInt) t s u) ∧
      ∃ u, exec (.jne t) s = .next u ∧ JumpsWhen ((s.reg 0).toInt ≠ (s.reg 1).toInt) t s u

/-- JL and JGE, signed (43_jumps.md R146, R149). -/
def Obligations.JlAndJgeCompareSigned : Prop :=
  ∀ (t : Word) (s : State),
    decode (wordI 0x000B010000000000 t) = .ok (.jl t) ∧ decode (wordI 0x000E010000000000 t) = .ok (.jge t) ∧
      (∃ u, exec (.jl t) s = .next u ∧ JumpsWhen ((s.reg 0).toInt < (s.reg 1).toInt) t s u) ∧
      ∃ u, exec (.jge t) s = .next u ∧ JumpsWhen ((s.reg 1).toInt ≤ (s.reg 0).toInt) t s u

/-- JLE and JG, signed (43_jumps.md R147, R148). -/
def Obligations.JleAndJgCompareSigned : Prop :=
  ∀ (t : Word) (s : State),
    decode (wordI 0x000C010000000000 t) = .ok (.jle t) ∧ decode (wordI 0x000D010000000000 t) = .ok (.jg t) ∧
      (∃ u, exec (.jle t) s = .next u ∧ JumpsWhen ((s.reg 0).toInt ≤ (s.reg 1).toInt) t s u) ∧
      ∃ u, exec (.jg t) s = .next u ∧ JumpsWhen ((s.reg 1).toInt < (s.reg 0).toInt) t s u

/-- A jump or call to a target outside the Program completes; the next step raises FetchOutOfBounds with the target as
its pc (43_jumps.md section 1; an inference the spec marks as its own). -/
def Obligations.OutOfRangeTargetFaultsAtTheNextFetch : Prop :=
  ∀ (x : Word) (s : State), s.runState = .running → (x.toInt < 0 ∨ (s.program.length : Int) ≤ x.toInt) →
    (Executes s (.jmp x) ∨ (Executes s (.call x) ∧ s.stackFull = false)) →
    ∃ t u, step s = .next t ∧ t.runState = .running ∧ t.reg 15 = x ∧ step t = .next u ∧
      IsFaultEntry .fetchOutOfBounds t u ∧ u.faultPc = x

/-! ### Stack and calls -/

/-- PUSH, on a stack that is not full and on one that is (44_stack_call.md R160). -/
def Obligations.PushAppendsOrOverflows : Prop :=
  ∀ (ra : RegIdx) (s : State),
    decode (wordR 0x0010010000000000 ra) = .ok (.push ra) ∧
      (s.stackCapacity ≠ some s.stack.length →
        ∃ t, exec (.push ra) s = .next t ∧ t.stack = s.reg ra :: s.stack ∧ OnlyAdvances s t ∧
          t.trapLog = s.trapLog ∧ SameRunRecord s t ∧ SameStores s t) ∧
      (s.stackCapacity = some s.stack.length →
        ∃ t, exec (.push ra) s = .next t ∧ IsFaultEntry .stackOverflow s t)

/-- POP, of a stack that is not empty and of one that is; after a PUSH it leaves the pushed register's pre-push value and
the stack as it was before the pair (44_stack_call.md R161). -/
def Obligations.PopTakesTheTopOrUnderflows : Prop :=
  ∀ (ra : RegIdx) (s : State),
    decode (wordR 0x0011010000000000 ra) = .ok (.pop ra) ∧
      (∀ v rest, s.stack = v :: rest →
        ∃ t, exec (.pop ra) s = .next t ∧ t.stack = rest ∧ WritesThenAdvances s t ra v ∧
          t.trapLog = s.trapLog ∧ SameRunRecord s t ∧ SameStores s t) ∧
      (s.stack = [] → ∃ t, exec (.pop ra) s = .next t ∧ IsFaultEntry .stackUnderflow s t) ∧
      ∀ r : RegIdx, s.stackCapacity ≠ some s.stack.length →
        ∃ t u, exec (.push r) s = .next t ∧ exec (.pop ra) t = .next u ∧ u.stack = s.stack ∧
          (ra ≠ 15 → u.reg ra = s.reg r) ∧ (ra = 15 → IsWrapOf (u.reg 15) ((s.reg r).toInt + 1)) ∧
          ∀ j, j ≠ ra → j ≠ 15 → u.reg j = s.reg j

/-- CALL, on a stack that is not full and on one that is; a RET in any state that has the stack as the CALL left it
returns to the instruction after the CALL (44_stack_call.md R162). -/
def Obligations.CallPushesTheReturnAddress : Prop :=
  ∀ (x : Word) (s : State),
    decode (wordI 0x0012010000000000 x) = .ok (.call x) ∧
      (s.stackCapacity ≠ some s.stack.length →
        ∃ ret t, exec (.call x) s = .next t ∧ IsWrapOf ret ((s.reg 15).toInt + 1) ∧ t.stack = ret :: s.stack ∧
          OnlyPcBecomes s t x ∧ t.trapLog = s.trapLog ∧ SameRunRecord s t ∧ SameStores s t ∧
          ∀ b : State, b.stack = t.stack →
            ∃ c, exec .ret b = .next c ∧ c.stack = s.stack ∧ OnlyPcBecomes b c ret) ∧
      (s.stackCapacity = some s.stack.length →
        ∃ t, exec (.call x) s = .next t ∧ IsFaultEntry .stackOverflow s t)

/-- RET, of a stack that is not empty and of one that is (44_stack_call.md R163). -/
def Obligations.RetPopsIntoThePc : Prop :=
  ∀ s : State,
    decode 0x0013000000000000 = .ok .ret ∧
      (∀ v rest, s.stack = v :: rest →
        ∃ t, exec .ret s = .next t ∧ t.stack = rest ∧ OnlyPcBecomes s t v ∧
          t.trapLog = s.trapLog ∧ SameRunRecord s t ∧ SameStores s t) ∧
      (s.stack = [] → ∃ t, exec .ret s = .next t ∧ IsFaultEntry .stackUnderflow s t)

/-- Return-address correctness over runs: after a CALL, take any number of steps in which the stack never gets shorter
than the CALL left it. A RET executed when it has that length again returns to the instruction after the CALL, with the
stack as it was before the CALL. Calls nested inside the run are steps of it, so the depth is arbitrary
(44_stack_call.md, the testable property of CALL and RET; an inference from the rules of its four instructions). -/
def Obligations.CallReturnsAfterAnyBalancedRun : Prop :=
  ∀ (x : Word) (k : Nat) (s t b : State), s.runState = .running → Executes s (.call x) → s.stackFull = false →
    step s = .next t → RunsTo k t b → (∀ j u, j ≤ k → RunsTo j t u → t.stack.length ≤ u.stack.length) →
    b.stack.length = t.stack.length → b.runState = .running → Executes b .ret →
    ∃ c, step b = .next c ∧ c.stack = s.stack ∧ OnlyPcBecomes b c (s.reg 15 + 1)

/-! ### System -/

/-- HLT (45_system_trap.md R170). -/
def Obligations.HltHaltsInPlace : Prop :=
  ∀ s : State,
    decode 0x0014000000000000 = .ok .hlt ∧
      ∃ t, exec .hlt s = .next t ∧ t.runState = .halted ∧ (∀ j, t.reg j = s.reg j) ∧ t.stack = s.stack ∧
        t.trapLog = s.trapLog ∧ t.faultKind = s.faultKind ∧ t.faultPc = s.faultPc ∧ SameStores s t ∧
        ∀ u, step t ≠ .next u

/-- NOP (45_system_trap.md R171). -/
def Obligations.NopAdvancesAlone : Prop :=
  ∀ s : State,
    decode 0x0015000000000000 = .ok .nop ∧
      ∃ t, exec .nop s = .next t ∧ OnlyAdvances s t ∧ SameBeyondRegisters s t

/-- TRAP, with a number in range whose handler completes (as every default handler does) and with one out of range
(45_system_trap.md R172). -/
def Obligations.TrapLogsItsNumberOrFaults : Prop :=
  ∀ (n : Word) (s : State),
    decode (wordI 0x0016010000000000 n) = .ok (.trap n) ∧
      (∀ k : TrapNumber, n.toInt = (k.val : Int) → s.trapTable.get k = .diagnostic →
        ∃ t, exec (.trap n) s = .next t ∧ t.trapLog = s.trapLog ++ [k] ∧ OnlyAdvances s t ∧ t.stack = s.stack ∧
          SameRunRecord s t ∧ SameStores s t) ∧
      (n.toInt < 0 ∨ 16 ≤ n.toInt → ∃ t, exec (.trap n) s = .next t ∧ IsFaultEntry .trapError s t)

/-- A handler that never completes hangs the machine in the TRAP step: no next state (45_system_trap.md section on the
handler contract; that the hang is the named stop is the model's choice, log 6). -/
def Obligations.TrapHangsWithItsHandler : Prop :=
  ∀ (n : Word) (k : TrapNumber) (s : State), n.toInt = (k.val : Int) → s.trapTable.get k = .neverCompletes →
    exec (.trap n) s = .fault (.trapHandlerNeverCompletes k)

/-! ### Reset and the host's ports -/

/-- The host's reset, accepted in any run state, gives every piece of state its reset value and keeps the Program and the
Trap Table (10_state.md R42, 70_reset_and_hazards.md R220). -/
def Obligations.ResetGivesEveryResetValue : Prop :=
  ∀ s : State, ∃ t, hostAct .reset s = some t ∧ (∀ j, t.reg j = 0) ∧ t.stack = [] ∧ t.runState = .ready ∧
    t.faultKind = .noFault ∧ t.faultPc = 0 ∧ t.trapLog = [] ∧
    (∀ a : Int, 0 ≤ a → a < (s.memSize : Int) → t.memRead a = some 0) ∧ SameConfiguration s t

/-- The machine's first state is the reset of itself, with R15 at index 0 and every register 0 (10_state.md section 10;
its empty Program and its parameters are the model's choice, log 1 and 2). -/
def Obligations.FirstStateIsAResetState : Prop :=
  State.reset.hostReset = State.reset ∧ (∀ j, State.reset.reg j = 0) ∧ State.reset.runState = .ready ∧
    State.reset.stack = [] ∧ (∀ n, State.reset.trapTable.get n = .diagnostic)

/-- `start` and register preload, in `Ready` alone (10_state.md section 8); a command given elsewhere is not accepted,
which is the model's choice, log 7. -/
def Obligations.ControlPortInReadyAlone : Prop :=
  (∀ (c : HostCommand) (s t : State), hostAct c s = some t → c = .reset ∨ s.runState = .ready) ∧
    (∀ s : State, s.runState = .ready → hostAct .start s = some { s with runState := .running }) ∧
    ∀ (i : RegIdx) (v : Word) (s : State), s.runState = .ready →
      ∃ t, hostAct (.preload i v) s = some t ∧ t.reg i = v ∧ (∀ j, j ≠ i → t.reg j = s.reg j) ∧
        SameBeyondRegisters s t

/-- From reset, loading a Program and `start` lead to `Running` with index 0 fetched first (70_reset_and_hazards.md
section 2; what stands in the first state's Program is the model's choice, log 2). -/
def Obligations.BootFetchesIndexZero : Prop :=
  ∀ ws : List InstrWord, ws.length ≤ 2147483647 →
    ∃ a b, hostAct (.loadProgram ws) State.reset = some a ∧ hostAct .start a = some b ∧ b.runState = .running ∧
      b.reg 15 = 0 ∧ b.program = ws ∧ b.fetch = ws.head?

/-- The Memory port: an address in range is written and read back and no other cell changes; one out of range is refused
with no effect (20_memory.md R54). -/
def Obligations.MemoryPortReadsBackItsWrite : Prop :=
  ∀ (s : State) (a : Int) (v : Word), s.runState = .ready → s.memory.wf = true →
    (0 ≤ a ∧ a < (s.memSize : Int) →
      ∃ t, hostAct (.memWrite a v) s = some t ∧ t.memRead a = some v ∧ (∀ b, b ≠ a → t.memRead b = s.memRead b) ∧
        t.memory.wf = true ∧ (∀ j, t.reg j = s.reg j) ∧ t.stack = s.stack ∧ t.trapLog = s.trapLog ∧
        SameRunRecord s t ∧ SameConfiguration s t) ∧
      (a < 0 ∨ (s.memSize : Int) ≤ a → hostAct (.memWrite a v) s = none ∧ s.memRead a = none)

/-- The loader's mirror: cell `i` holds the opcode code of the word at index `i` as a non-negative value, for the indices
that have a cell; no other cell changes (20_memory.md section 1; for a word that is no instruction this is the model's
reading, log 10; that the mirror takes the Program held when it is given is the model's choice, log 13). -/
def Obligations.MirrorHoldsTheOpcodeCodes : Prop :=
  ∀ s : State, s.runState = .ready → s.memory.wf = true →
    ∃ t, hostAct .mirrorOpcodes s = some t ∧
      (∀ (i : Nat) (w : InstrWord), i < s.memSize → s.program[i]? = some w →
        ∃ v, t.memRead i = some v ∧ v.toInt = ((opcodeField w).toNat : Int)) ∧
      (∀ a : Int, (s.program.length : Int) ≤ a → t.memRead a = s.memRead a) ∧
      (∀ j, t.reg j = s.reg j) ∧ t.stack = s.stack ∧ t.trapLog = s.trapLog ∧ SameRunRecord s t ∧
      SameConfiguration s t

/-- The numbers of the run states and of the fault kinds on the status port (10_state.md section 5). -/
def Obligations.StatusPortCodes : Prop :=
  ∀ s : State, hostStatus s =
    ⟨match s.runState with
      | .ready => 0
      | .running => 1
      | .halted => 2
      | .faulted => 3,
     match s.faultKind with
      | .noFault => 0
      | .decodeError => 1
      | .fetchOutOfBounds => 2
      | .divideByZero => 3
      | .stackUnderflow => 4
      | .trapError => 5
      | .stackOverflow => 6, s.faultPc⟩
end

