-- ==== Sys2Proof/Laws/Encoding.lean ====
section
/-! SUPPORT. The fields of a packed word, and the table's codes. -/

namespace Sys2Proof

/-- Every bit of a packed word. -/
theorem getLsbD_packWord (c : BitVec 16) (n : BitVec 8) (p : Word) (i : Nat) :
    (packWord c n p).getLsbD i =
      if i < 32 then p.getLsbD i else if i < 40 then false
      else if i < 48 then n.getLsbD (i - 40) else c.getLsbD (i - 48) := by
  have h : (packWord c n p).getLsbD i = (c ++ n ++ (0 : BitVec 8) ++ p : BitVec (16 + 8 + 8 + 32)).getLsbD i := rfl
  rw [h, BitVec.getLsbD_append, BitVec.getLsbD_append, BitVec.getLsbD_append]
  have e1 : i - 32 - 8 = i - 40 := by omega
  have e2 : i - 40 - 8 = i - 48 := by omega
  have c1 : (i - 32 < 8) = (i < 40 ∨ i < 32) := by rw [eq_iff_iff]; omega
  have c2 : (i - 40 < 8) = (i < 48 ∨ i < 40) := by rw [eq_iff_iff]; omega
  rw [e1, e2]
  by_cases h1 : i < 32
  · simp [h1]
  · by_cases h2 : i < 40
    · simp [h1, h2, c1]
    · simp [h1, h2, c1, c2]

@[simp] theorem opcodeField_packWord (c : BitVec 16) (n : BitVec 8) (p : Word) : opcodeField (packWord c n p) = c := by
  apply BitVec.eq_of_getLsbD_eq
  intro i hi
  rw [opcodeField, BitVec.getLsbD_extractLsb', getLsbD_packWord, if_neg (by omega), if_neg (by omega),
    if_neg (by omega)]
  simp [hi]

@[simp] theorem nopsField_packWord (c : BitVec 16) (n : BitVec 8) (p : Word) : nopsField (packWord c n p) = n := by
  apply BitVec.eq_of_getLsbD_eq
  intro i hi
  rw [nopsField, BitVec.getLsbD_extractLsb', getLsbD_packWord, if_neg (by omega), if_neg (by omega),
    if_pos (by omega)]
  simp [hi]

@[simp] theorem payloadField_packWord (c : BitVec 16) (n : BitVec 8) (p : Word) :
    payloadField (packWord c n p) = p := by
  apply BitVec.eq_of_getLsbD_eq
  intro i hi
  rw [payloadField, BitVec.getLsbD_extractLsb', getLsbD_packWord, if_pos (by omega)]
  simp [hi]

@[simp] theorem highReg_payloadRR (ra rb : RegIdx) : highReg (payloadRR ra rb) = ra := by
  revert ra rb; decide

@[simp] theorem lowReg_payloadRR (ra rb : RegIdx) : lowReg (payloadRR ra rb) = rb := by
  revert ra rb; decide

@[simp] theorem lowReg_payloadR (ra : RegIdx) : lowReg (payloadR ra) = ra := by
  revert ra; decide

@[simp] theorem Opcode.ofCode_code (op : Opcode) : Opcode.ofCode op.code = some op := by cases op <;> rfl

theorem Opcode.ofCode_eq_some {c : BitVec 16} {op : Opcode} (h : Opcode.ofCode c = some op) : c = op.code := by
  unfold Opcode.ofCode at h
  split at h <;> simp only [Option.some.injEq, reduceCtorEq] at h <;> subst h <;>
    (apply BitVec.eq_of_toNat_eq; assumption)

/-- No two opcodes have one code. -/
theorem Opcode.code_injective : Function.Injective Opcode.code := by
  intro a b h
  have := Opcode.ofCode_code a
  rw [h, Opcode.ofCode_code] at this
  exact (Option.some.inj this).symm

@[simp] theorem Opcode.opcode_assemble (op : Opcode) (p : Word) : (op.assemble p).opcode = op := by cases op <;> rfl

/-- All that the decoder can answer. -/
theorem decode_eq_ok_iff {w : InstrWord} {i : Instr} :
    decode w = .ok i ↔ opcodeField w = i.opcode.code ∧ (nopsField w).toNat = i.opcode.arity ∧
      i = i.opcode.assemble (payloadField w) := by
  unfold decode
  constructor
  · intro h
    split at h
    · cases h
    · next op hop =>
      split at h
      · next hn =>
        obtain rfl := (Except.ok.inj h).symm
        simp [Opcode.ofCode_eq_some hop, hn]
      · cases h
  · rintro ⟨h1, h2, h3⟩
    rw [h1, Opcode.ofCode_code]
    simp only [h2, if_true]
    rw [← h3]

end Sys2Proof
end

