-- ==== Sys2Proof/Laws/Memory.lean ====
section
/-! SUPPORT. Memory: a read after a write, and every operation keeps the canonical form and the address range. -/

namespace Sys2Proof.Machine

/-- The canonical form of a list with a first entry. -/
theorem Memory.wf_cons (p : Nat × Word) (m : Memory) :
    Memory.wf (p :: m) = true ↔ (∀ q ∈ m, p.1 < q.1) ∧ p.2 ≠ Memory.unlisted ∧ Memory.wf m = true := by
  simp only [Memory.wf, List.pairwise_cons, List.all_cons, Bool.and_eq_true, decide_eq_true_eq, bne_iff_ne]
  tauto

@[simp] theorem Memory.wf_nil : Memory.wf [] = true := rfl

@[simp] theorem Memory.read_nil (a : Nat) : Memory.read [] a = Memory.unlisted := rfl

/-- An address below every listed one reads as an unlisted cell. -/
theorem Memory.read_of_below {m : Memory} {a : Nat} (h : ∀ q ∈ m, a < q.1) : Memory.read m a = Memory.unlisted := by
  induction m with
  | nil => rfl
  | cons p rest ih =>
    have hp : a ≠ p.1 := Nat.ne_of_lt (h p (by simp))
    simp only [Memory.read, hp, if_false]
    exact ih fun q hq => h q (by simp [hq])

theorem Memory.read_put_self {m : Memory} {a : Nat} (v : Word) (h : ∀ q ∈ m, a < q.1) :
    Memory.read (Memory.put a v m) a = v := by
  unfold Memory.put
  split
  · next hv => rw [Memory.read_of_below h, hv]
  · simp [Memory.read]

theorem Memory.read_put_ne {a b : Nat} (m : Memory) (v : Word) (h : b ≠ a) :
    Memory.read (Memory.put a v m) b = Memory.read m b := by
  unfold Memory.put
  split <;> simp [Memory.read, h]

/-- A read after a write to the same cell gives the value written. -/
theorem Memory.read_write_self {m : Memory} (hm : m.wf = true) (a : Nat) (v : Word) : (m.write a v).read a = v := by
  induction m with
  | nil => exact Memory.read_put_self v (by simp)
  | cons p rest ih =>
    obtain ⟨b, u⟩ := p
    obtain ⟨hb, -, hr⟩ := (Memory.wf_cons _ _).1 hm
    simp only [Memory.write]
    split
    · next hab =>
      refine Memory.read_put_self v fun q hq => ?_
      rcases List.mem_cons.1 hq with rfl | hq
      · exact hab
      · exact Nat.lt_trans hab (hb q hq)
    · split
      · next hab => subst hab; exact Memory.read_put_self v hb
      · next hab => simp only [Memory.read, hab, if_false]; exact ih hr

/-- A write leaves every other cell alone. -/
theorem Memory.read_write_ne (m : Memory) {a b : Nat} (v : Word) (h : b ≠ a) :
    (m.write a v).read b = m.read b := by
  induction m with
  | nil => exact Memory.read_put_ne [] v h
  | cons p rest ih =>
    obtain ⟨c, u⟩ := p
    simp only [Memory.write]
    split
    · exact Memory.read_put_ne _ v h
    · split
      · next hac => subst hac; rw [Memory.read_put_ne _ v h]; simp [Memory.read, h]
      · simp only [Memory.read, ih]

theorem Memory.wf_put {m : Memory} {a : Nat} (v : Word) (hm : m.wf = true) (h : ∀ q ∈ m, a < q.1) :
    (Memory.put a v m).wf = true := by
  unfold Memory.put
  split
  · exact hm
  · next hv => exact (Memory.wf_cons _ _).2 ⟨h, hv, hm⟩

/-- A listed address of the memory after a write was listed before or is the one written. -/
theorem Memory.mem_write {m : Memory} {a : Nat} {v : Word} {q : Nat × Word} (h : q ∈ m.write a v) :
    q ∈ m ∨ q.1 = a := by
  induction m with
  | nil =>
    simp only [Memory.write, Memory.put] at h
    split at h <;> simp_all
  | cons p rest ih =>
    obtain ⟨b, u⟩ := p
    simp only [Memory.write, Memory.put] at h
    rw [List.mem_cons]
    repeat' split at h
    all_goals try simp only [List.mem_cons] at h
    all_goals first
      | tauto
      | (rcases h with h | h <;> first | (subst h; tauto) | tauto)

/-- A write keeps the canonical form. -/
theorem Memory.wf_write {m : Memory} (hm : m.wf = true) (a : Nat) (v : Word) : (m.write a v).wf = true := by
  induction m with
  | nil => exact Memory.wf_put v hm (by simp)
  | cons p rest ih =>
    obtain ⟨b, u⟩ := p
    obtain ⟨hb, hu, hr⟩ := (Memory.wf_cons _ _).1 hm
    simp only [Memory.write]
    split
    · next hab =>
      refine Memory.wf_put v hm fun q hq => ?_
      rcases List.mem_cons.1 hq with rfl | hq
      · exact hab
      · exact Nat.lt_trans hab (hb q hq)
    · split
      · next hab => subst hab; exact Memory.wf_put v hr hb
      · next h1 h2 =>
        refine (Memory.wf_cons _ _).2 ⟨fun q hq => ?_, hu, ih hr⟩
        rcases Memory.mem_write hq with hq | hq
        · exact hb q hq
        · simp only [hq]; omega

/-- A write to an existing cell lists no cell outside Memory. -/
theorem Memory.within_write {n a : Nat} {m : Memory} (hm : m.within n = true) (ha : a < n) (v : Word) :
    (m.write a v).within n = true := by
  simp only [Memory.within, List.all_eq_true, decide_eq_true_eq] at hm ⊢
  intro q hq
  rcases Memory.mem_write hq with hq | hq
  · exact hm q hq
  · omega

/-- The loader's mirror of the opcodes keeps the canonical form and the range. -/
theorem mirrorFrom_keeps (n : Nat) (ws : List InstrWord) (i : Nat) (m : Memory) (hm : m.wf = true)
    (hn : m.within n = true) : (mirrorFrom n ws i m).wf = true ∧ (mirrorFrom n ws i m).within n = true := by
  induction ws generalizing i m with
  | nil => exact ⟨hm, hn⟩
  | cons w ws ih =>
    simp only [mirrorFrom]
    split
    · next hi => exact ih _ _ (Memory.wf_write hm _ _) (Memory.within_write hn hi _)
    · exact ih _ _ hm hn

theorem State.selectCell_eq_some {s : State} {a : Int} {n : Nat} :
    s.selectCell a = some n ↔ 0 ≤ a ∧ a < (s.memSize : Int) ∧ n = a.toNat := by
  unfold State.selectCell
  split <;> simp <;> omega

theorem State.selectCell_eq_none {s : State} {a : Int} :
    s.selectCell a = none ↔ a < 0 ∨ (s.memSize : Int) ≤ a := by
  unfold State.selectCell
  split <;> simp <;> omega

/-- All that an accepted write of the Memory port does. -/
theorem State.memWrite_eq_some {s t : State} {a : Int} {v : Word} :
    s.memWrite a v = some t ↔ (0 ≤ a ∧ a < (s.memSize : Int)) ∧ t = { s with memory := s.memory.write a.toNat v } := by
  unfold State.memWrite State.selectCell
  split <;> simp_all [eq_comm]

/-- Reset memory is in canonical form. -/
theorem State.reset_memory_wf : State.reset.memory.wf = true := rfl

end Sys2Proof.Machine
end

