-- ==== Sys2Proof/Laws/State.lean ====
section
/-! SUPPORT. One lemma per field per state update, all true by unfolding, and what a register read sees of each. -/

namespace Sys2Proof.Machine

variable (s : State)

/-! ### `setReg` -/

@[simp] theorem State.setReg_regs (i : RegIdx) (v : Word) : (s.setReg i v).regs = s.regs.set i.val v i.isLt := rfl
@[simp] theorem State.setReg_stack (i : RegIdx) (v : Word) : (s.setReg i v).stack = s.stack := rfl
@[simp] theorem State.setReg_runState (i : RegIdx) (v : Word) : (s.setReg i v).runState = s.runState := rfl
@[simp] theorem State.setReg_faultKind (i : RegIdx) (v : Word) : (s.setReg i v).faultKind = s.faultKind := rfl
@[simp] theorem State.setReg_faultPc (i : RegIdx) (v : Word) : (s.setReg i v).faultPc = s.faultPc := rfl
@[simp] theorem State.setReg_trapLog (i : RegIdx) (v : Word) : (s.setReg i v).trapLog = s.trapLog := rfl
@[simp] theorem State.setReg_memory (i : RegIdx) (v : Word) : (s.setReg i v).memory = s.memory := rfl
@[simp] theorem State.setReg_program (i : RegIdx) (v : Word) : (s.setReg i v).program = s.program := rfl
@[simp] theorem State.setReg_trapTable (i : RegIdx) (v : Word) : (s.setReg i v).trapTable = s.trapTable := rfl
@[simp] theorem State.setReg_memSize (i : RegIdx) (v : Word) : (s.setReg i v).memSize = s.memSize := rfl
@[simp] theorem State.setReg_stackCapacity (i : RegIdx) (v : Word) : (s.setReg i v).stackCapacity = s.stackCapacity := rfl

/-! ### `setPc` -/

@[simp] theorem State.setPc_regs (t : Word) : (s.setPc t).regs = s.regs.set 15 t := rfl
@[simp] theorem State.setPc_stack (t : Word) : (s.setPc t).stack = s.stack := rfl
@[simp] theorem State.setPc_runState (t : Word) : (s.setPc t).runState = s.runState := rfl
@[simp] theorem State.setPc_faultKind (t : Word) : (s.setPc t).faultKind = s.faultKind := rfl
@[simp] theorem State.setPc_faultPc (t : Word) : (s.setPc t).faultPc = s.faultPc := rfl
@[simp] theorem State.setPc_trapLog (t : Word) : (s.setPc t).trapLog = s.trapLog := rfl
@[simp] theorem State.setPc_memory (t : Word) : (s.setPc t).memory = s.memory := rfl
@[simp] theorem State.setPc_program (t : Word) : (s.setPc t).program = s.program := rfl
@[simp] theorem State.setPc_trapTable (t : Word) : (s.setPc t).trapTable = s.trapTable := rfl
@[simp] theorem State.setPc_memSize (t : Word) : (s.setPc t).memSize = s.memSize := rfl
@[simp] theorem State.setPc_stackCapacity (t : Word) : (s.setPc t).stackCapacity = s.stackCapacity := rfl

/-! ### `advance` -/

@[simp] theorem State.advance_regs : (s.advance).regs = s.regs.set 15 (wrap32 (s.pc.toInt + 1)) := rfl
@[simp] theorem State.advance_stack : (s.advance).stack = s.stack := rfl
@[simp] theorem State.advance_runState : (s.advance).runState = s.runState := rfl
@[simp] theorem State.advance_faultKind : (s.advance).faultKind = s.faultKind := rfl
@[simp] theorem State.advance_faultPc : (s.advance).faultPc = s.faultPc := rfl
@[simp] theorem State.advance_trapLog : (s.advance).trapLog = s.trapLog := rfl
@[simp] theorem State.advance_memory : (s.advance).memory = s.memory := rfl
@[simp] theorem State.advance_program : (s.advance).program = s.program := rfl
@[simp] theorem State.advance_trapTable : (s.advance).trapTable = s.trapTable := rfl
@[simp] theorem State.advance_memSize : (s.advance).memSize = s.memSize := rfl
@[simp] theorem State.advance_stackCapacity : (s.advance).stackCapacity = s.stackCapacity := rfl

/-! ### `raise` -/

@[simp] theorem State.raise_regs (k : FaultKind) : (s.raise k).regs = s.regs := rfl
@[simp] theorem State.raise_stack (k : FaultKind) : (s.raise k).stack = s.stack := rfl
@[simp] theorem State.raise_runState (k : FaultKind) : (s.raise k).runState = .faulted := rfl
@[simp] theorem State.raise_faultKind (k : FaultKind) : (s.raise k).faultKind = k := rfl
@[simp] theorem State.raise_faultPc (k : FaultKind) : (s.raise k).faultPc = s.pc := rfl
@[simp] theorem State.raise_trapLog (k : FaultKind) : (s.raise k).trapLog = s.trapLog := rfl
@[simp] theorem State.raise_memory (k : FaultKind) : (s.raise k).memory = s.memory := rfl
@[simp] theorem State.raise_program (k : FaultKind) : (s.raise k).program = s.program := rfl
@[simp] theorem State.raise_trapTable (k : FaultKind) : (s.raise k).trapTable = s.trapTable := rfl
@[simp] theorem State.raise_memSize (k : FaultKind) : (s.raise k).memSize = s.memSize := rfl
@[simp] theorem State.raise_stackCapacity (k : FaultKind) : (s.raise k).stackCapacity = s.stackCapacity := rfl

/-! ### `push` -/

@[simp] theorem State.push_regs (v : Word) : (s.push v).regs = s.regs := rfl
@[simp] theorem State.push_stack (v : Word) : (s.push v).stack = v :: s.stack := rfl
@[simp] theorem State.push_runState (v : Word) : (s.push v).runState = s.runState := rfl
@[simp] theorem State.push_faultKind (v : Word) : (s.push v).faultKind = s.faultKind := rfl
@[simp] theorem State.push_faultPc (v : Word) : (s.push v).faultPc = s.faultPc := rfl
@[simp] theorem State.push_trapLog (v : Word) : (s.push v).trapLog = s.trapLog := rfl
@[simp] theorem State.push_memory (v : Word) : (s.push v).memory = s.memory := rfl
@[simp] theorem State.push_program (v : Word) : (s.push v).program = s.program := rfl
@[simp] theorem State.push_trapTable (v : Word) : (s.push v).trapTable = s.trapTable := rfl
@[simp] theorem State.push_memSize (v : Word) : (s.push v).memSize = s.memSize := rfl
@[simp] theorem State.push_stackCapacity (v : Word) : (s.push v).stackCapacity = s.stackCapacity := rfl

/-! ### `logTrap` -/

@[simp] theorem State.logTrap_regs (n : TrapNumber) : (s.logTrap n).regs = s.regs := rfl
@[simp] theorem State.logTrap_stack (n : TrapNumber) : (s.logTrap n).stack = s.stack := rfl
@[simp] theorem State.logTrap_runState (n : TrapNumber) : (s.logTrap n).runState = s.runState := rfl
@[simp] theorem State.logTrap_faultKind (n : TrapNumber) : (s.logTrap n).faultKind = s.faultKind := rfl
@[simp] theorem State.logTrap_faultPc (n : TrapNumber) : (s.logTrap n).faultPc = s.faultPc := rfl
@[simp] theorem State.logTrap_trapLog (n : TrapNumber) : (s.logTrap n).trapLog = s.trapLog ++ [n] := rfl
@[simp] theorem State.logTrap_memory (n : TrapNumber) : (s.logTrap n).memory = s.memory := rfl
@[simp] theorem State.logTrap_program (n : TrapNumber) : (s.logTrap n).program = s.program := rfl
@[simp] theorem State.logTrap_trapTable (n : TrapNumber) : (s.logTrap n).trapTable = s.trapTable := rfl
@[simp] theorem State.logTrap_memSize (n : TrapNumber) : (s.logTrap n).memSize = s.memSize := rfl
@[simp] theorem State.logTrap_stackCapacity (n : TrapNumber) : (s.logTrap n).stackCapacity = s.stackCapacity := rfl

/-! ### Register reads -/

@[simp] theorem State.reg_setReg_self (i : RegIdx) (v : Word) : (s.setReg i v).reg i = v := by
  simp [State.reg, State.setReg, Vector.get_eq_getElem]

theorem State.reg_setReg_ne {i j : RegIdx} (v : Word) (h : j ≠ i) : (s.setReg i v).reg j = s.reg j := by
  have h' : i.val ≠ j.val := fun e => h (Fin.ext e.symm)
  simp [State.reg, State.setReg, Vector.get_eq_getElem, h']

theorem State.reg_setReg (i j : RegIdx) (v : Word) : (s.setReg i v).reg j = if j = i then v else s.reg j := by
  by_cases h : j = i
  · subst h; simp
  · simp [h, State.reg_setReg_ne s v h]

theorem State.pc_eq_reg : s.pc = s.reg 15 := rfl

@[simp] theorem State.pc_setPc (t : Word) : (s.setPc t).pc = t := State.reg_setReg_self s pcReg t

theorem State.reg_setPc (j : RegIdx) (t : Word) : (s.setPc t).reg j = if j = 15 then t else s.reg j :=
  State.reg_setReg s pcReg j t

@[simp] theorem State.pc_advance : s.advance.pc = wrap32 (s.pc.toInt + 1) := State.pc_setPc s _

theorem State.reg_advance (j : RegIdx) : s.advance.reg j = if j = 15 then wrap32 (s.pc.toInt + 1) else s.reg j :=
  State.reg_setPc s j _

@[simp] theorem State.reg_raise (k : FaultKind) (j : RegIdx) : (s.raise k).reg j = s.reg j := rfl
@[simp] theorem State.pc_raise (k : FaultKind) : (s.raise k).pc = s.pc := rfl
@[simp] theorem State.reg_push (v : Word) (j : RegIdx) : (s.push v).reg j = s.reg j := rfl
@[simp] theorem State.pc_push (v : Word) : (s.push v).pc = s.pc := rfl
@[simp] theorem State.reg_logTrap (n : TrapNumber) (j : RegIdx) : (s.logTrap n).reg j = s.reg j := rfl
@[simp] theorem State.pc_logTrap (n : TrapNumber) : (s.logTrap n).pc = s.pc := rfl

/-! ### Memory reads: no engine update touches Memory -/

@[simp] theorem State.memRead_setReg (i : RegIdx) (v : Word) (a : Int) : (s.setReg i v).memRead a = s.memRead a := rfl
@[simp] theorem State.memRead_setPc (t : Word) (a : Int) : (s.setPc t).memRead a = s.memRead a := rfl
@[simp] theorem State.memRead_advance (a : Int) : (s.advance).memRead a = s.memRead a := rfl
@[simp] theorem State.memRead_raise (k : FaultKind) (a : Int) : (s.raise k).memRead a = s.memRead a := rfl
@[simp] theorem State.memRead_push (v : Word) (a : Int) : (s.push v).memRead a = s.memRead a := rfl
@[simp] theorem State.memRead_logTrap (n : TrapNumber) (a : Int) : (s.logTrap n).memRead a = s.memRead a := rfl

/-! ### Reset -/

theorem State.reg_resetWith (p : List InstrWord) (tt : Vector Handler 16) (m : Nat) (c : Option Nat) (i : RegIdx) :
    (State.resetWith p tt m c).reg i = 0 := by
  simp [State.reg, State.resetWith, Vector.get_eq_getElem]

end Sys2Proof.Machine
end

