-- ==== Sys2Proof/Laws/Ops.lean ====
section
/-! SUPPORT. For each shared operation, one lemma that says once everything it can do. -/

namespace Sys2Proof.Machine

theorem sequential_eq (s : State) : sequential s = .next s.advance := rfl

theorem redirect_eq (t : Word) (s : State) : redirect t s = .next (s.setPc t) := rfl

theorem branch_eq (taken : Bool) (t : Word) (s : State) :
    branch taken t s = .next (if taken then s.setPc t else s.advance) := by cases taken <;> rfl

theorem writeBack_eq (ra : RegIdx) (v : Word) (s : State) : writeBack ra v s = .next (s.setReg ra v).advance := rfl

theorem takeFault_eq (k : FaultKind) (s : State) : takeFault k s = .next (s.raise k) := rfl

/-- What every register holds after `x[ra] <- v` and Advance, R15 as a destination included. -/
theorem reg_writeBack (ra j : RegIdx) (v : Word) (s : State) :
    ((s.setReg ra v).advance).reg j =
      if j = 15 then wrap32 ((if ra = 15 then v else s.pc).toInt + 1) else if j = ra then v else s.reg j := by
  rw [State.reg_advance]
  by_cases h : ra = 15
  · subst h
    by_cases hj : j = 15 <;> simp [State.pc, State.reg_setReg, hj]
  · have h' : ¬ (15 : RegIdx) = ra := fun e => h e.symm
    by_cases hj : j = 15 <;> simp [State.pc, State.reg_setReg, hj, h, h']

theorem State.stackFull_iff (s : State) : s.stackFull = true ↔ s.stackCapacity = some s.stack.length := by
  simp [State.stackFull]

theorem State.pop_eq_none_iff (s : State) : s.pop = none ↔ s.stack = [] := by
  unfold State.pop; split <;> simp_all

theorem State.pop_eq_some_iff {s s' : State} {v : Word} :
    s.pop = some (v, s') ↔ ∃ rest, s.stack = v :: rest ∧ s' = { s with stack := rest } := by
  unfold State.pop
  cases h : s.stack with
  | nil => simp
  | cons x rest => simp only [Option.some.injEq, Prod.mk.injEq, List.cons.injEq]; aesop

theorem State.fetch_eq_some_iff {s : State} {w : InstrWord} :
    s.fetch = some w ↔ 0 ≤ s.pc.toInt ∧ s.program[s.pc.toInt.toNat]? = some w := by
  unfold State.fetch; split <;> simp_all

/-- Fetch fails exactly when the signed pc is outside `0 .. PROG_LEN - 1`. -/
theorem State.fetch_eq_none_iff {s : State} :
    s.fetch = none ↔ s.pc.toInt < 0 ∨ (s.program.length : Int) ≤ s.pc.toInt := by
  unfold State.fetch
  split
  · rw [List.getElem?_eq_none_iff]; omega
  · simp; omega

theorem trapIndex_eq_none_iff {n : Word} : trapIndex n = none ↔ n.toInt < 0 ∨ 16 ≤ n.toInt := by
  unfold trapIndex; split <;> simp <;> omega

theorem trapIndex_eq_some_iff {n : Word} {k : TrapNumber} : trapIndex n = some k ↔ n.toInt = (k.val : Int) := by
  obtain ⟨k, hk⟩ := k
  simp only [Config.trapTableSize] at hk
  unfold trapIndex
  split <;> simp <;> omega

theorem State.handlerCompletes_iff (s : State) (n : TrapNumber) :
    s.handlerCompletes n = true ↔ s.trapTable.get n = .diagnostic := by simp [State.handlerCompletes]

/-- The word placed at an index is the one read there. -/
theorem placeWord_getElem? (p : List InstrWord) (i : Nat) (w : InstrWord) : (placeWord p i w)[i]? = some w := by
  induction i generalizing p with
  | zero => cases p <;> rfl
  | succ i ih => cases p <;> simp [placeWord, ih]

end Sys2Proof.Machine
end

