-- ==== Sys2Proof/Laws/PerInstr.lean ====
section
/-! SUPPORT. Families of statements about every instruction as syntax, one lemma per constructor. -/

namespace Sys2Proof.Laws

/-- The word of an instruction carries the instruction's code and operand count (30_encoding.md R83), and its structure
form is well-formed. -/
def EncodedFields.Statement (i : Instr) : Prop :=
  opcodeField (encode i) = i.opcode.code ∧ (nopsField (encode i)).toNat = i.opcode.arity ∧
    payloadField (encode i) = i.payload ∧ i.wellFormed = true

/-- The three fields, whatever the instruction. -/
theorem encodedFields_of_wellFormed {i : Instr} (h : i.wellFormed = true) : EncodedFields.Statement i :=
  ⟨opcodeField_packWord .., by rw [encode, nopsField_packWord]; cases i <;> rfl, payloadField_packWord .., h⟩

theorem wellFormed_of_regs {i : Instr} {op : Opcode} {ra rb : RegIdx} (ho : i.opcode = op) (hf : op.format = .RR)
    (h : i.operands = [.reg ra.val, .reg rb.val]) : i.wellFormed = true := by
  subst ho
  simp [Instr.wellFormed, Instr.toDecoded, DecodedInstruction.wellFormed, DecodedInstruction.opcodeKnown,
    DecodedInstruction.operandCountOk, DecodedInstruction.operandKindsOk, Opcode.arity, Format.arity, Operand.kindOk,
    Operand.registerOk, Operand.immediateOk, hf, h]

theorem wellFormed_of_reg {i : Instr} {op : Opcode} {ra : RegIdx} (ho : i.opcode = op) (hf : op.format = .R)
    (h : i.operands = [.reg ra.val]) : i.wellFormed = true := by
  subst ho
  simp [Instr.wellFormed, Instr.toDecoded, DecodedInstruction.wellFormed, DecodedInstruction.opcodeKnown,
    DecodedInstruction.operandCountOk, DecodedInstruction.operandKindsOk, Opcode.arity, Format.arity, Operand.kindOk,
    Operand.registerOk, Operand.immediateOk, hf, h]

theorem wellFormed_of_imm {i : Instr} {op : Opcode} {t : Word} (ho : i.opcode = op) (hf : op.format = .I)
    (h : i.operands = [.imm t.toInt]) : i.wellFormed = true := by
  subst ho
  have h1 := BitVec.le_toInt t
  have h2 := BitVec.toInt_lt (x := t)
  simp [Instr.wellFormed, Instr.toDecoded, DecodedInstruction.wellFormed, DecodedInstruction.opcodeKnown,
    DecodedInstruction.operandCountOk, DecodedInstruction.operandKindsOk, Opcode.arity, Format.arity, Operand.kindOk,
    Operand.registerOk, Operand.immediateOk, hf, h]
  omega

theorem EncodedFields.add (ra rb : RegIdx) : EncodedFields.Statement (.add ra rb) :=
  encodedFields_of_wellFormed (wellFormed_of_regs (op := .add) rfl rfl rfl)

theorem EncodedFields.sub (ra rb : RegIdx) : EncodedFields.Statement (.sub ra rb) :=
  encodedFields_of_wellFormed (wellFormed_of_regs (op := .sub) rfl rfl rfl)

theorem EncodedFields.mul (ra rb : RegIdx) : EncodedFields.Statement (.mul ra rb) :=
  encodedFields_of_wellFormed (wellFormed_of_regs (op := .mul) rfl rfl rfl)

theorem EncodedFields.div (ra rb : RegIdx) : EncodedFields.Statement (.div ra rb) :=
  encodedFields_of_wellFormed (wellFormed_of_regs (op := .div) rfl rfl rfl)

theorem EncodedFields.mov (ra rb : RegIdx) : EncodedFields.Statement (.mov ra rb) :=
  encodedFields_of_wellFormed (wellFormed_of_regs (op := .mov) rfl rfl rfl)

theorem EncodedFields.jmp (t : Word) : EncodedFields.Statement (.jmp t) :=
  encodedFields_of_wellFormed (wellFormed_of_imm (op := .jmp) rfl rfl rfl)

theorem EncodedFields.jz (t : Word) : EncodedFields.Statement (.jz t) :=
  encodedFields_of_wellFormed (wellFormed_of_imm (op := .jz) rfl rfl rfl)

theorem EncodedFields.jnz (t : Word) : EncodedFields.Statement (.jnz t) :=
  encodedFields_of_wellFormed (wellFormed_of_imm (op := .jnz) rfl rfl rfl)

theorem EncodedFields.je (t : Word) : EncodedFields.Statement (.je t) :=
  encodedFields_of_wellFormed (wellFormed_of_imm (op := .je) rfl rfl rfl)

theorem EncodedFields.jne (t : Word) : EncodedFields.Statement (.jne t) :=
  encodedFields_of_wellFormed (wellFormed_of_imm (op := .jne) rfl rfl rfl)

theorem EncodedFields.jl (t : Word) : EncodedFields.Statement (.jl t) :=
  encodedFields_of_wellFormed (wellFormed_of_imm (op := .jl) rfl rfl rfl)

theorem EncodedFields.jle (t : Word) : EncodedFields.Statement (.jle t) :=
  encodedFields_of_wellFormed (wellFormed_of_imm (op := .jle) rfl rfl rfl)

theorem EncodedFields.jg (t : Word) : EncodedFields.Statement (.jg t) :=
  encodedFields_of_wellFormed (wellFormed_of_imm (op := .jg) rfl rfl rfl)

theorem EncodedFields.jge (t : Word) : EncodedFields.Statement (.jge t) :=
  encodedFields_of_wellFormed (wellFormed_of_imm (op := .jge) rfl rfl rfl)

theorem EncodedFields.cmp (ra rb : RegIdx) : EncodedFields.Statement (.cmp ra rb) :=
  encodedFields_of_wellFormed (wellFormed_of_regs (op := .cmp) rfl rfl rfl)

theorem EncodedFields.push (ra : RegIdx) : EncodedFields.Statement (.push ra) :=
  encodedFields_of_wellFormed (wellFormed_of_reg (op := .push) rfl rfl rfl)

theorem EncodedFields.pop (ra : RegIdx) : EncodedFields.Statement (.pop ra) :=
  encodedFields_of_wellFormed (wellFormed_of_reg (op := .pop) rfl rfl rfl)

theorem EncodedFields.call (t : Word) : EncodedFields.Statement (.call t) :=
  encodedFields_of_wellFormed (wellFormed_of_imm (op := .call) rfl rfl rfl)

theorem EncodedFields.ret : EncodedFields.Statement .ret := encodedFields_of_wellFormed (by decide)

theorem EncodedFields.hlt : EncodedFields.Statement .hlt := encodedFields_of_wellFormed (by decide)

theorem EncodedFields.nop : EncodedFields.Statement .nop := encodedFields_of_wellFormed (by decide)

theorem EncodedFields.trap (n : Word) : EncodedFields.Statement (.trap n) :=
  encodedFields_of_wellFormed (wellFormed_of_imm (op := .trap) rfl rfl rfl)

end Sys2Proof.Laws
end

