-- ==== Sys2Proof/Laws/Run.lean ====
section
/-! SUPPORT. What a run of `k` steps is, one step at a time. -/

namespace Sys2Proof.Machine

/-- A host machine's run of one step more. -/
theorem core_run_succ (M : Host.Core) (k : Nat) (s : M.State) :
    M.run (k + 1) s = match M.step s with
      | .next u => M.run k u
      | .fault r => .fault r
      | .refused r => .refused r := rfl

@[simp] theorem runsTo_zero {s t : State} : RunsTo 0 s t ↔ t = s := by
  constructor
  · intro h; cases h; rfl
  · rintro rfl; rfl

/-- A run of `k + 1` steps is a step to a next state and a run of `k` steps from there. -/
theorem runsTo_succ {k : Nat} {s t : State} : RunsTo (k + 1) s t ↔ ∃ u, step s = .next u ∧ RunsTo k u t := by
  have h := core_run_succ Sys2Proof.core k s
  unfold RunsTo
  rw [h, show Sys2Proof.core.step s = step s from rfl]
  cases step s with
  | next u => exact ⟨fun h => ⟨u, rfl, h⟩, fun ⟨v, hv, h⟩ => by cases hv; exact h⟩
  | fault r => exact ⟨fun h => (nomatch h), fun ⟨v, hv, _⟩ => (nomatch hv)⟩
  | refused r => exact ⟨fun h => (nomatch h), fun ⟨v, hv, _⟩ => (nomatch hv)⟩

end Sys2Proof.Machine
end

