-- ==== Sys2Proof/Laws/Step.lean ====
section
/-! SUPPORT. What a step can do, said once: the inversion of `step`, and the three shapes of an instruction's next
state. -/

namespace Sys2Proof.Machine

/-- A step in `Running` is Fetch, then Decode, then Execute. -/
theorem step_of_running {s : State} (h : s.runState = .running) :
    step s = match s.fetch with
      | none => takeFault .fetchOutOfBounds s
      | some w =>
        match decode w with
        | .error _ => takeFault .decodeError s
        | .ok i => exec i s := by
  cases s
  cases h
  rfl

/-- All that a step which answers a next state can have done. -/
theorem step_next_cases {s t : State} (h : step s = .next t) :
    s.runState = .running ∧
      ((s.fetch = none ∧ t = s.raise .fetchOutOfBounds) ∨
        (∃ w e, s.fetch = some w ∧ decode w = .error e ∧ t = s.raise .decodeError) ∨
        ∃ w i, s.fetch = some w ∧ decode w = .ok i ∧ exec i s = .next t) := by
  have hr : s.runState = .running := by
    unfold step at h
    cases hr : s.runState with
    | running => rfl
    | ready => simp [hr] at h
    | halted => simp [hr] at h
    | faulted => simp [hr] at h
  refine ⟨hr, ?_⟩
  rw [step_of_running hr] at h
  cases hf : s.fetch with
  | none => simp only [hf, takeFault_eq, Host.Outcome.next.injEq] at h; exact .inl ⟨rfl, h.symm⟩
  | some w =>
    cases hd : decode w with
    | error e =>
      simp only [hf, hd, takeFault_eq, Host.Outcome.next.injEq] at h
      exact .inr (.inl ⟨w, e, rfl, hd, h.symm⟩)
    | ok i => simp only [hf, hd] at h; exact .inr (.inr ⟨w, i, rfl, hd, h⟩)

/-- The next state of an instruction that neither faults nor halts: only registers, the stack and the trap log can
differ, the stack by one push (not onto a full stack) or one pop, the trap log by one number at its end. -/
def Completes (s t : State) : Prop :=
  ∃ regs stack trapLog, t = { s with regs := regs, stack := stack, trapLog := trapLog } ∧
    (stack = s.stack ∨ (∃ v, stack = v :: s.stack ∧ s.stackCapacity ≠ some s.stack.length) ∨ ∃ v, s.stack = v :: stack) ∧
    (trapLog = s.trapLog ∨ ∃ k, trapLog = s.trapLog ++ [k])

theorem completes_advance (s : State) : Completes s s.advance := ⟨_, _, _, rfl, .inl rfl, .inl rfl⟩

theorem completes_setPc (s : State) (x : Word) : Completes s (s.setPc x) := ⟨_, _, _, rfl, .inl rfl, .inl rfl⟩

theorem completes_writeBack (s : State) (r : RegIdx) (v : Word) : Completes s (s.setReg r v).advance :=
  ⟨_, _, _, rfl, .inl rfl, .inl rfl⟩

theorem completes_push {s : State} (v : Word) (h : ¬s.stackFull = true) : Completes s (s.push v).advance :=
  ⟨_, _, _, rfl, .inr (.inl ⟨v, rfl, fun e => h ((State.stackFull_iff s).2 e)⟩), .inl rfl⟩

theorem completes_call {s : State} (v x : Word) (h : ¬s.stackFull = true) : Completes s ((s.push v).setPc x) :=
  ⟨_, _, _, rfl, .inr (.inl ⟨v, rfl, fun e => h ((State.stackFull_iff s).2 e)⟩), .inl rfl⟩

theorem completes_logTrap (s : State) (k : TrapNumber) : Completes s (s.logTrap k).advance :=
  ⟨_, _, _, rfl, .inl rfl, .inr ⟨k, rfl⟩⟩

/-- The three shapes of an instruction's next state: a fault entry, the halt of HLT, or a completion. -/
theorem exec_next_cases {i : Instr} {s t : State} (h : exec i s = .next t) :
    (∃ K, K ≠ .noFault ∧ t = s.raise K) ∨ (i = .hlt ∧ t = { s with runState := .halted }) ∨
      (i ≠ .hlt ∧ Completes s t) := by
  have wb : ∀ r v, writeBack r v s = .next t → Completes s t := by
    intro r v h
    rw [writeBack_eq, Host.Outcome.next.injEq] at h
    exact h ▸ completes_writeBack s r v
  have br : ∀ b x, branch b x s = .next t → Completes s t := by
    intro b x h
    rw [branch_eq, Host.Outcome.next.injEq] at h
    subst h
    split
    · exact completes_setPc s x
    · exact completes_advance s
  have tf : ∀ K, K ≠ .noFault → takeFault K s = .next t → ∃ K, K ≠ .noFault ∧ t = s.raise K := by
    intro K hK h
    rw [takeFault_eq, Host.Outcome.next.injEq] at h
    exact ⟨K, hK, h.symm⟩
  cases i <;> simp only [exec] at h
  case add ra rb => exact .inr (.inr ⟨by simp, wb _ _ h⟩)
  case sub ra rb => exact .inr (.inr ⟨by simp, wb _ _ h⟩)
  case mul ra rb => exact .inr (.inr ⟨by simp, wb _ _ h⟩)
  case mov ra rb => exact .inr (.inr ⟨by simp, wb _ _ h⟩)
  case cmp ra rb => exact .inr (.inr ⟨by simp, wb _ _ h⟩)
  case div ra rb =>
    unfold execDiv at h
    split at h
    · exact .inl (tf _ (by decide) h)
    · exact .inr (.inr ⟨by simp, wb _ _ h⟩)
  case jmp x =>
    rw [execJmp, redirect_eq, Host.Outcome.next.injEq] at h
    exact .inr (.inr ⟨by simp, h ▸ completes_setPc s x⟩)
  case push ra =>
    unfold execPush at h
    split at h
    · exact .inl (tf _ (by decide) h)
    · next hf =>
      rw [sequential_eq, Host.Outcome.next.injEq] at h
      exact .inr (.inr ⟨by simp, h ▸ completes_push _ hf⟩)
  case call x =>
    unfold execCall at h
    split at h
    · exact .inl (tf _ (by decide) h)
    · next hf =>
      rw [redirect_eq, Host.Outcome.next.injEq] at h
      exact .inr (.inr ⟨by simp, h ▸ completes_call _ x hf⟩)
  case pop ra =>
    unfold execPop at h
    split at h
    · exact .inl (tf _ (by decide) h)
    · next v s' hp =>
      obtain ⟨rest, hs, rfl⟩ := State.pop_eq_some_iff.1 hp
      rw [writeBack_eq, Host.Outcome.next.injEq] at h
      exact .inr (.inr ⟨by simp, _, rest, _, h.symm, .inr (.inr ⟨v, hs⟩), .inl rfl⟩)
  case ret =>
    unfold execRet at h
    split at h
    · exact .inl (tf _ (by decide) h)
    · next v s' hp =>
      obtain ⟨rest, hs, rfl⟩ := State.pop_eq_some_iff.1 hp
      rw [redirect_eq, Host.Outcome.next.injEq] at h
      exact .inr (.inr ⟨by simp, _, rest, _, h.symm, .inr (.inr ⟨v, hs⟩), .inl rfl⟩)
  case hlt => exact .inr (.inl ⟨rfl, (Host.Outcome.next.inj h).symm⟩)
  case nop =>
    rw [execNop, sequential_eq, Host.Outcome.next.injEq] at h
    exact .inr (.inr ⟨by simp, h ▸ completes_advance s⟩)
  case trap n =>
    unfold execTrap at h
    split at h
    · exact .inl (tf _ (by decide) h)
    · next k hk =>
      split at h
      · rw [sequential_eq, Host.Outcome.next.injEq] at h
        exact .inr (.inr ⟨by simp, h ▸ completes_logTrap s k⟩)
      · cases h
  all_goals exact .inr (.inr ⟨by simp, br _ _ h⟩)

/-- The word that `withFetchWord` places is the one the next step fetches, when the pc is a Program index. -/
theorem fetch_withFetchWord {s : State} (nbits w : Nat) (h0 : 0 ≤ s.pc.toInt)
    (h1 : s.pc.toInt < (Config.maxProgLen : Int)) :
    (s.withFetchWord nbits w).runState = .running ∧
      (s.withFetchWord nbits w).fetch = some (BitVec.ofNat 64 (w % 2 ^ nbits)) := by
  unfold State.withFetchWord State.placeNext
  simp only [h0, h1, and_self, if_true, true_and]
  exact State.fetch_eq_some_iff.2 ⟨h0, placeWord_getElem? _ _ _⟩

end Sys2Proof.Machine
end

