-- ==== Sys2Proof/Laws/Word.lean ====
section
/-! SUPPORT. `wrap32` and two's complement. -/

namespace Sys2Proof

/-- `wrap32` is the balanced remainder modulo `2^32`. -/
theorem toInt_wrap32 (z : Int) : (wrap32 z).toInt = z.bmod (2 ^ 32) := BitVec.toInt_ofInt ..

/-- `wrap32(z)` is congruent to `z` modulo `2^32`. -/
theorem dvd_wrap32 (z : Int) : (4294967296 : Int) ∣ (wrap32 z).toInt - z := by
  rw [toInt_wrap32, Int.bmod_def]
  split <;> omega

/-- A register-width value is its own wrap. -/
@[simp] theorem wrap32_toInt (v : Word) : wrap32 v.toInt = v := BitVec.ofInt_toInt

/-- Two register-width values are equal when they are equal as integers. -/
theorem word_ext_toInt {v w : Word} : v = w ↔ v.toInt = w.toInt := ⟨fun h => h ▸ rfl, BitVec.eq_of_toInt_eq⟩

theorem wrap32_add (v w : Word) : wrap32 (v.toInt + w.toInt) = v + w :=
  BitVec.eq_of_toInt_eq (by rw [toInt_wrap32, BitVec.toInt_add])

theorem wrap32_sub (v w : Word) : wrap32 (v.toInt - w.toInt) = v - w :=
  BitVec.eq_of_toInt_eq (by rw [toInt_wrap32, BitVec.toInt_sub])

theorem wrap32_mul (v w : Word) : wrap32 (v.toInt * w.toInt) = v * w :=
  BitVec.eq_of_toInt_eq (by rw [toInt_wrap32, BitVec.toInt_mul])

theorem wrap32_tdiv (v w : Word) : wrap32 (v.toInt.tdiv w.toInt) = v.sdiv w :=
  BitVec.eq_of_toInt_eq (by rw [toInt_wrap32, BitVec.toInt_sdiv])

/-- The incrementer in bit-vector form. -/
theorem wrap32_add_one (v : Word) : wrap32 (v.toInt + 1) = v + 1 :=
  wrap32_add v 1

end Sys2Proof
end

