-- ==== Sys2Proof/Tests/Slice0.lean ====
section
/-! SUPPORT. The model's own tests: the smoke test of WellFormed, decoding of words written out from the spec, one step
per instruction on the vectors of 95_test_vectors.md, and a witness for the hypotheses of each statement. -/

namespace Sys2Proof.Tests

open Sys2Proof Sys2Proof.Machine Sys2Proof.Claims

/-! ### WellFormed refuses an ill-formed term for each check -/

theorem test_wellFormed_accepts : (DecodedInstruction.mk 0x0001 [.reg 15, .reg 0]).wellFormed = true := by decide

theorem test_wellFormed_unknown_opcode : (DecodedInstruction.mk 0x0017 []).wellFormed = false := by decide

theorem test_wellFormed_operand_count : (DecodedInstruction.mk 0x0001 [.reg 2]).wellFormed = false := by decide

theorem test_wellFormed_operand_kind : (DecodedInstruction.mk 0x0001 [.reg 2, .imm 3]).wellFormed = false := by decide

theorem test_wellFormed_register_range : (DecodedInstruction.mk 0x0010 [.reg 16]).wellFormed = false := by decide

theorem test_wellFormed_immediate_range :
    (DecodedInstruction.mk 0x0006 [.imm 2147483648]).wellFormed = false := by decide

/-! ### Decoding: the example word of each row of spec/opcode_table.json -/

theorem test_decode_add : decode 0x0001020000000023 = .ok (.add 2 3) := by decide

theorem test_decode_sub : decode 0x0002020000000023 = .ok (.sub 2 3) := by decide

theorem test_decode_mul : decode 0x0003020000000023 = .ok (.mul 2 3) := by decide

theorem test_decode_div : decode 0x0004020000000023 = .ok (.div 2 3) := by decide

theorem test_decode_mov : decode 0x0005020000000023 = .ok (.mov 2 3) := by decide

theorem test_decode_jmp : decode 0x0006010000000005 = .ok (.jmp 5) := by decide

theorem test_decode_jz : decode 0x0007010000000005 = .ok (.jz 5) := by decide

theorem test_decode_jnz : decode 0x0008010000000005 = .ok (.jnz 5) := by decide

theorem test_decode_je : decode 0x0009010000000005 = .ok (.je 5) := by decide

theorem test_decode_jne : decode 0x000A010000000005 = .ok (.jne 5) := by decide

theorem test_decode_jl : decode 0x000B010000000005 = .ok (.jl 5) := by decide

theorem test_decode_jle : decode 0x000C010000000005 = .ok (.jle 5) := by decide

theorem test_decode_jg : decode 0x000D010000000005 = .ok (.jg 5) := by decide

theorem test_decode_jge : decode 0x000E010000000005 = .ok (.jge 5) := by decide

theorem test_decode_cmp : decode 0x000F020000000023 = .ok (.cmp 2 3) := by decide

theorem test_decode_push : decode 0x0010010000000005 = .ok (.push 5) := by decide

theorem test_decode_pop : decode 0x0011010000000005 = .ok (.pop 5) := by decide

theorem test_decode_call : decode 0x0012010000000005 = .ok (.call 5) := by decide

theorem test_decode_ret : decode 0x0013000000000000 = .ok .ret := by decide

theorem test_decode_hlt : decode 0x0014000000000000 = .ok .hlt := by decide

theorem test_decode_nop : decode 0x0015000000000000 = .ok .nop := by decide

theorem test_decode_trap : decode 0x0016010000000005 = .ok (.trap 5) := by decide

/-! ### Decoding: corners of 95_test_vectors.md F1 and 30_encoding.md R92 -/

theorem test_decode_all_zero : decode 0 = .error .unknownOpcode := by decide

theorem test_decode_opcode_after_last : decode 0x0017000000000000 = .error .unknownOpcode := by decide

theorem test_decode_opcode_ffff : decode 0xFFFF020000000012 = .error .unknownOpcode := by decide

theorem test_decode_add_nops_3 : decode 0x0001030000000005 = .error .operandCount := by decide

theorem test_decode_hlt_nops_255 : decode 0x0014FF0000000000 = .error .operandCount := by decide

theorem test_decode_jmp_nops_0 : decode 0x0006000000000003 = .error .operandCount := by decide

theorem test_decode_hlt_ignored_bits : decode 0x001400ABDEADBEEF = .ok .hlt := by decide

theorem test_decode_add_ignored_bits : decode 0x0001020012345605 = .ok (.add 0 5) := by decide

theorem test_decode_negative_target : decode 0x00060100FFFFFFFF = .ok (.jmp (-1)) := by decide

/-- The image of `ADD(R0,R5)`, `0x0001020000000005`, lowest byte first (20_memory.md R55). -/
theorem test_decode_bytes : decodeBytes [0x05, 0, 0, 0, 0, 0x02, 0x01, 0] = .ok (.add 0 5) := by decide

theorem test_decode_bytes_short : decodeBytes [0x05, 0, 0] = .error .imageLength := by decide

theorem test_decodeTableWord : decodeTableWord 64 0x000F020000000023 = some (.cmp 2 3) := by decide

theorem test_encode_add : encode (.add 2 3) = 0x0001020000000023 := by decide

theorem test_encode_trap : encode (.trap 15) = 0x001601000000000F := by decide

/-! ### One step (95_test_vectors.md, Part 2) -/

/-- The state in `Running` with the given pc, registers and stack (top first). -/
def start (pc : Word) (rs : List (RegIdx × Word)) (st : List Word) : State :=
  { rs.foldl (fun s p => s.setReg p.1 p.2) (State.reset.setPc pc) with stack := st, runState := .running }

/-- What a test looks at after one step with the word `w` at the pc; `none` when the step stops. -/
def see {α : Type} (f : State → α) (s : State) (w : Nat) : Option α :=
  match step (s.withFetchWord 64 w) with
  | .next t => some (f t)
  | .fault _ => none
  | .refused _ => none

/-- R2 and the pc. -/
def r2pc (t : State) : Word × Word := (t.reg 2, t.pc)

/-- R0 and the pc. -/
def r0pc (t : State) : Word × Word := (t.reg 0, t.pc)

/-- The stack and the pc. -/
def stackPc (t : State) : List Word × Word := (t.stack, t.pc)

/-- The status port and the pc. -/
def status (t : State) : RunState × FaultKind × Word × Word := (t.runState, t.faultKind, t.faultPc, t.pc)

theorem test_add_wraps : see r2pc (start 4 [(2, 2147483647), (3, 1)] []) 0x0001020000000023 = some (-2147483648, 5) := by decide

theorem test_add_doubles : see (State.reg · 3) (start 0 [(3, 21)] []) 0x0001020000000033 = some 42 := by decide

theorem test_sub_order : see r2pc (start 4 [(2, 5), (3, 7)] []) 0x0002020000000023 = some (-2, 5) := by decide

theorem test_sub_wraps : see r2pc (start 0 [(3, (-2147483648))] []) 0x0002020000000023 = some (-2147483648, 1) := by decide

theorem test_mul_wraps : see r2pc (start 0 [(2, 46341)] []) 0x0003020000000022 = some (-2147479015, 1) := by decide

theorem test_mul_signs : see r2pc (start 0 [(2, -7), (3, 2)] []) 0x0003020000000023 = some (-14, 1) := by decide

theorem test_div_truncates : see r2pc (start 4 [(2, -7), (3, 2)] []) 0x0004020000000023 = some (-3, 5) := by decide

theorem test_div_by_zero : see status (start 3 [(2, 42)] []) 0x0004020000000023 = some (.faulted, .divideByZero, 3, 3) := by decide

theorem test_mov_from_r15 : see (State.reg · 3) (start 9 [] []) 0x000502000000003F = some 9 := by decide

theorem test_mov_to_r15 : see State.pc (start 3 [(5, 5)] []) 0x00050200000000F5 = some 6 := by decide

theorem test_cmp_extremes : see r0pc (start 4 [(2, (-2147483648)), (3, 2147483647)] []) 0x000F020000000023 = some (-1, 5) := by decide

theorem test_cmp_reads_r0_first : see r0pc (start 4 [(0, 9), (1, 2)] []) 0x000F020000000001 = some (1, 5) := by decide

theorem test_jmp_negative : see State.pc (start 2 [] []) 0x00060100FFFFFFFF = some (-1) := by decide

theorem test_jz_taken : see State.pc (start 2 [(0, 0), (1, 5)] []) 0x0007010000000005 = some 5 := by decide

theorem test_jz_not_taken : see State.pc (start 2 [(0, 1), (1, 0)] []) 0x0007010000000005 = some 3 := by decide

theorem test_jnz_taken : see State.pc (start 2 [(0, -1), (1, 0)] []) 0x0008010000000005 = some 5 := by decide

theorem test_jnz_not_taken : see State.pc (start 2 [(0, 0), (1, 5)] []) 0x0008010000000005 = some 3 := by decide

theorem test_je_taken : see State.pc (start 2 [(0, 7), (1, 7)] []) 0x0009010000000005 = some 5 := by decide

theorem test_je_not_taken : see State.pc (start 2 [(0, 0), (1, 5)] []) 0x0009010000000005 = some 3 := by decide

theorem test_jne_taken : see State.pc (start 2 [(0, 0), (1, 5)] []) 0x000A010000000005 = some 5 := by decide

theorem test_jne_not_taken : see State.pc (start 2 [(0, 7), (1, 7)] []) 0x000A010000000005 = some 3 := by decide

theorem test_jl_taken : see State.pc (start 2 [(0, -1), (1, 0)] []) 0x000B010000000005 = some 5 := by decide

theorem test_jl_not_taken : see State.pc (start 2 [(0, 7), (1, 7)] []) 0x000B010000000005 = some 3 := by decide

theorem test_jle_taken : see State.pc (start 2 [(0, 7), (1, 7)] []) 0x000C010000000005 = some 5 := by decide

theorem test_jle_not_taken : see State.pc (start 2 [(0, 1), (1, 0)] []) 0x000C010000000005 = some 3 := by decide

theorem test_jg_taken : see State.pc (start 2 [(0, 2147483647), (1, -2147483648)] []) 0x000D010000000005 = some 5 := by decide

theorem test_jg_not_taken : see State.pc (start 2 [(0, 7), (1, 7)] []) 0x000D010000000005 = some 3 := by decide

theorem test_jge_taken : see State.pc (start 2 [(0, 7), (1, 7)] []) 0x000E010000000005 = some 5 := by decide

theorem test_jge_not_taken : see State.pc (start 2 [(0, -1), (1, 0)] []) 0x000E010000000005 = some 3 := by decide

theorem test_push_pc0 : see stackPc (start 1 [] [4]) 0x001001000000000F = some ([1, 4], 2) := by decide

theorem test_push_overflow :
    see status { start 1 [] [0] with stackCapacity := some 1 } 0x0010010000000001 =
      some (.faulted, .stackOverflow, 1, 1) := by decide

theorem test_pop_takes_the_top : see (fun t => (t.reg 6, t.stack)) (start 2 [] [9, 7]) 0x0011010000000006 = some (9, [7]) := by decide

theorem test_pop_underflow : see status (start 2 [(6, 3)] []) 0x0011010000000006 = some (.faulted, .stackUnderflow, 2, 2) := by decide

theorem test_call_pushes_return : see stackPc (start 2 [] [1]) 0x0012010000000005 = some ([3, 1], 5) := by decide

theorem test_ret_pops : see stackPc (start 7 [] [1]) 0x0013000000000000 = some ([], 1) := by decide

theorem test_ret_underflow : see status (start 0 [] []) 0x0013000000000000 = some (.faulted, .stackUnderflow, 0, 0) := by decide

theorem test_hlt : see status (start 4 [] []) 0x0014000000000000 = some (.halted, .noFault, 0, 4) := by decide

theorem test_nop : see State.pc (start 2 [] []) 0x0015000000000000 = some 3 := by decide

theorem test_trap_last : see (fun t => (t.trapLog, t.pc)) (start 3 [] []) 0x001601000000000F = some ([15], 4) := by decide

theorem test_trap_16 : see status (start 0 [] []) 0x0016010000000010 = some (.faulted, .trapError, 0, 0) := by decide

theorem test_illegal_word : see status (start 1 [] []) 0x0001010000000005 = some (.faulted, .decodeError, 1, 1) := by decide

/-- The first step after reset runs the word placed for it. -/
theorem test_first_step : see status State.reset 0x0015000000000000 = some (.running, .noFault, 0, 1) := by decide

/-! ### Witnesses: a state and operands that meet the hypotheses of each statement that has some -/

/-- The state in `Running` at pc `pc` of the Program `ws`. -/
def at' (pc : Word) (ws : List InstrWord) (st : List Word) : State := { start pc [] st with program := ws }

/-- The same at index 0 with the given words, and a stack of one entry that is full. -/
def full (ws : List InstrWord) : State := { at' 0 ws [7] with stackCapacity := some 1 }

theorem executes_of {s : State} {i : Instr} (w : InstrWord) (h : s.fetch = some w) (d : decode w = .ok i) :
    Executes s i := ⟨w, h, d⟩

theorem witness_step_next : ∃ t, step (at' 0 [0x0015000000000000] []) = .next t := ⟨_, rfl⟩

theorem witness_DecodeOfEncodeIsTheInstruction : (Instr.add 15 0).wellFormed = true := by decide

theorem witness_EncodeOfDecodeClearsIgnoredBits : decode 0x001400ABDEADBEEF = .ok .hlt := by decide

theorem witness_IgnoredBitsTakeNoPart :
    Opcode.ofCode (opcodeField 0x0001020012345605) = some .add ∧
      (0x0001020012345605 : InstrWord) &&& Opcode.add.format.usedBits =
        0x0001020000000005 &&& Opcode.add.format.usedBits := by decide

/-- The last opcode value below the table, the first above it, and the greatest. -/
theorem witness_UnknownOpcodeIsDecodeError :
    ((at' 0 [0] []).fetch = some 0 ∧ (opcodeField 0).toNat = 0) ∧
      (opcodeField 0x0017000000000000).toNat = 23 ∧ (opcodeField 0xFFFF020000000012).toNat = 65535 ∧
      (at' 0 [0] []).runState = .running := by decide

theorem witness_OperandCountMismatchIsDecodeError :
    Opcode.ofCode (opcodeField 0x0001030000000005) = some .add ∧
      (nopsField 0x0001030000000005).toNat ≠ Opcode.add.arity ∧
      (at' 0 [0x0001030000000005] []).fetch = some 0x0001030000000005 ∧
      Opcode.ofCode (DecodedInstruction.mk 0x0001 [.reg 2]).opcode = some .add ∧
      (DecodedInstruction.mk 0x0001 [.reg 2]).operands.length ≠ Opcode.add.arity := by decide

theorem witness_StructureFormCorresponds : ofDecoded ⟨0x0010, [.reg 15]⟩ = .ok (.push 15) := by decide

theorem witness_StepExecutesTheDecodedInstruction :
    (at' 0 [0x0015000000000000] []).runState = .running ∧
      (at' 0 [0x0015000000000000] []).program[(((at' 0 [0x0015000000000000] []).reg 15).toInt).toNat]? =
        some 0x0015000000000000 ∧ decode 0x0015000000000000 = .ok .nop ∧ Instr.nop.wellFormed = true := by decide

/-- In range at the last index; out of range at `PROG_LEN` and at `-1`. -/
theorem witness_FetchIsInBoundsOrFaults :
    (at' 1 [0, 5] []).fetch = some 5 ∧ ((at' 2 [0, 5] []).program.length : Int) ≤ ((at' 2 [0, 5] []).reg 15).toInt ∧
      ((at' (-1) [0, 5] []).reg 15).toInt < 0 ∧ (at' 2 [0, 5] []).runState = .running := by decide

theorem witness_NoStepOutsideRunning :
    (∃ t, step (at' 0 [0x0015000000000000] []) = .next t) ∧
      ({ at' 0 [] [] with runState := .halted } : State).runState = .halted ∧
      ∃ t, hostAct .reset { at' 0 [] [] with runState := .halted } = some t := ⟨witness_step_next, rfl, _, rfl⟩

theorem witness_RunningStepAnswersNext :
    (at' 0 [] []).runState = .running ∧ ∀ n, (at' 0 [] []).trapTable.get n = .diagnostic := by decide

theorem witness_FaultEntryChangesTheRecordAlone :
    ∃ t, step (at' 0 [] []) = .next t ∧ t.runState = .faulted := ⟨_, rfl, rfl⟩

/-- A running state with the cause of each of the six kinds, and one with none (a NOP). -/
theorem witness_EachFaultHasExactlyItsCause :
    FaultCause (at' 0 [] []) .fetchOutOfBounds ∧ FaultCause (at' 0 [0] []) .decodeError ∧
      FaultCause (at' 0 [0x0004020000000023] []) .divideByZero ∧
      FaultCause (at' 0 [0x0013000000000000] []) .stackUnderflow ∧
      FaultCause (at' 0 [0x0016010000000010] []) .trapError ∧
      FaultCause (full [0x0010010000000001]) .stackOverflow ∧ ¬FaultCause (at' 0 [0x0015000000000000] []) .noFault :=
  ⟨.inr (by decide), ⟨0, .unknownOpcode, rfl, rfl⟩, ⟨2, 3, executes_of _ rfl rfl, by decide⟩,
    ⟨.inr (executes_of _ rfl rfl), rfl⟩, ⟨16, executes_of _ rfl rfl, .inr (by decide)⟩,
    ⟨.inl ⟨1, executes_of _ rfl rfl⟩, rfl⟩, id⟩

theorem witness_RunStateMovesOnlyByHltOrFault :
    ∃ t, step (at' 0 [0x0014000000000000] []) = .next t ∧ Executes (at' 0 [0x0014000000000000] []) .hlt :=
  ⟨_, rfl, executes_of _ rfl rfl⟩

theorem witness_StepChangesNoStore : ∃ s t, step s = .next t := ⟨_, witness_step_next⟩

theorem witness_StackChangesByItsFourInstructions :
    ∃ t, step (at' 0 [0x0010010000000005] []) = .next t ∧ t.stack ≠ [] := ⟨_, rfl, by decide⟩

theorem witness_TrapLogGrowsByTrapAlone :
    ∃ t, step (at' 0 [0x0016010000000000] []) = .next t ∧ t.trapLog = [0] := ⟨_, rfl, by decide⟩

/-- R0 changed by CMP, and R3 changed by POP. -/
theorem witness_RegistersChangeOnlyWhereNamed :
    (∃ t, step { start 1 [(2, 5)] [] with program := [0, 0x000F020000000023] } = .next t ∧ t.reg 0 ≠ 0) ∧
      ∃ t, step (at' 0 [0x0011010000000003] [7]) = .next t ∧ t.reg 3 ≠ (at' 0 [0x0011010000000003] [7]).reg 3 :=
  ⟨⟨_, rfl, by decide⟩, _, rfl, by decide⟩

/-- One next state that is a fault entry and one that is not. -/
theorem witness_PcEffectOfEveryInstruction :
    (∃ t, exec .ret (at' 0 [] []) = .next t ∧ t.runState = .faulted) ∧
      ∃ t, exec .nop (at' 0 [] []) = .next t ∧ t.runState ≠ .faulted := ⟨⟨_, rfl, rfl⟩, _, rfl, by decide⟩

/-- A state in `Running` with one word in its Program and one cell of Memory written. -/
def running : State := { at' 0 [0x0015000000000000] [7] with memory := [(65535, 1)], stackCapacity := some 1 }

theorem running_inv : running.Inv where
  memoryCanonical := by decide
  memoryWithin := by decide
  programLength := by decide
  stackWithin := by intro c h; cases h; decide
  recordClear := fun _ => ⟨rfl, rfl⟩
  recordSet := by intro h; cases h
  overflowFinite := by intro h; cases h
  readyFresh := by intro h; cases h

theorem witness_StepKeepsTheInvariant : running.Inv ∧ ∃ t, step running = .next t := ⟨running_inv, _, rfl⟩

theorem witness_HostCommandKeepsTheInvariant : running.Inv ∧ ∃ t, hostAct .reset running = some t :=
  ⟨running_inv, _, rfl⟩

theorem witness_ReachableStatesMeetTheInvariant :
    Reachable (State.resetWith [0x0015000000000000] (Vector.replicate 16 .neverCompletes) 0 (some 0)) :=
  .reset _ _ _ _ (by decide)

/-- A divisor that is not zero, and one that is. -/
theorem witness_DivTruncatesOrFaults :
    ((start 0 [(3, -1)] []).reg 3).toInt ≠ 0 ∧ ((start 0 [] []).reg 3).toInt = 0 := by decide

theorem witness_DivOfMinByMinusOneWraps :
    ((start 0 [(2, -2147483648), (3, -1)] []).reg 2).toInt = -2147483648 ∧
      ((start 0 [(2, -2147483648), (3, -1)] []).reg 3).toInt = -1 := by decide

/-- R2 below, equal to and above R3, at the ends of the range. -/
theorem witness_CmpSetsTheThreeWayResult :
    ((start 0 [(2, -2147483648), (3, 2147483647)] []).reg 2).toInt <
        ((start 0 [(2, -2147483648), (3, 2147483647)] []).reg 3).toInt ∧
      ((start 0 [] []).reg 2).toInt = ((start 0 [] []).reg 3).toInt ∧
      ((start 0 [(3, -1)] []).reg 3).toInt < ((start 0 [(3, -1)] []).reg 2).toInt := by decide

theorem witness_CmpSwappedIsNegated :
    (2 : RegIdx) ≠ 0 ∧ (3 : RegIdx) ≠ 0 ∧ (2 : RegIdx) ≠ 15 ∧ (3 : RegIdx) ≠ 15 := by decide

theorem witness_R15AsAnOperand :
    (14 : RegIdx) ≠ 15 ∧ (start 0 [] []).stackFull = false ∧ (start 0 [] [8]).stack = [8] := by decide

/-- R0 zero, and not; the case of JZ taken is the case of JNZ not taken. -/
theorem witness_JzAndJnzConsultR0 :
    ((start 0 [] []).reg 0).toInt = 0 ∧ ((start 0 [(0, -1)] []).reg 0).toInt ≠ 0 := by decide

theorem witness_JeAndJneCompareR0WithR1 :
    ((start 0 [] []).reg 0).toInt = ((start 0 [] []).reg 1).toInt ∧
      ((start 0 [(0, -1)] []).reg 0).toInt ≠ ((start 0 [(0, -1)] []).reg 1).toInt := by decide

theorem witness_JlAndJgeCompareSigned :
    ((start 0 [(0, -1)] []).reg 0).toInt < ((start 0 [(0, -1)] []).reg 1).toInt ∧
      ((start 0 [] []).reg 1).toInt ≤ ((start 0 [] []).reg 0).toInt := by decide

theorem witness_JleAndJgCompareSigned :
    ((start 0 [] []).reg 0).toInt ≤ ((start 0 [] []).reg 1).toInt ∧
      ((start 0 [(1, -1)] []).reg 1).toInt < ((start 0 [(1, -1)] []).reg 0).toInt := by decide

/-- `JMP(1)` and `CALL(-1)` in a Program of one word. -/
theorem witness_OutOfRangeTargetFaultsAtTheNextFetch :
    (Executes (at' 0 [0x0006010000000001] []) (.jmp 1) ∧
        ((at' 0 [0x0006010000000001] []).program.length : Int) ≤ (1 : Word).toInt) ∧
      Executes (at' 0 [0x00120100FFFFFFFF] []) (.call (-1)) ∧ (-1 : Word).toInt < 0 ∧
      (at' 0 [0x00120100FFFFFFFF] []).stackFull = false ∧ (at' 0 [0x00120100FFFFFFFF] []).runState = .running :=
  ⟨⟨executes_of _ rfl rfl, by decide⟩, executes_of _ rfl rfl, by decide, by decide, by decide⟩

/-- A stack one short of a capacity of 1, and one that is full. -/
theorem witness_PushAppendsOrOverflows :
    ({ at' 0 [] [] with stackCapacity := some 1 } : State).stackCapacity ≠ some (at' 0 [] []).stack.length ∧
      (full []).stackCapacity = some (full []).stack.length := by decide

theorem witness_PopTakesTheTopOrUnderflows :
    (full []).stack = [7] ∧ (at' 0 [] []).stack = [] ∧ (at' 0 [] []).stackCapacity ≠ some 0 := by decide

/-- As for PUSH; and a state with the stack as the CALL left it. -/
theorem witness_CallPushesTheReturnAddress :
    (∃ t, exec (.call 5) (at' 0 [] []) = .next t ∧ (at' 9 [] [1]).stack = t.stack) ∧
      (at' 0 [] []).stackCapacity ≠ some (at' 0 [] []).stack.length ∧
      (full []).stackCapacity = some (full []).stack.length := ⟨⟨_, rfl, rfl⟩, by decide, by decide⟩

theorem witness_RetPopsIntoThePc : (full []).stack = [7] ∧ (at' 0 [] []).stack = [] := by decide

/-- `CALL(2); HLT; NOP; RET` from index 0: the NOP is the run between the CALL and its RET. -/
theorem witness_CallReturnsAfterAnyBalancedRun :
    ∃ s t b, s.runState = .running ∧ Executes s (.call 2) ∧ s.stackFull = false ∧ step s = .next t ∧ RunsTo 1 t b ∧
      (∀ j u, j ≤ 1 → RunsTo j t u → t.stack.length ≤ u.stack.length) ∧ b.stack.length = t.stack.length ∧
      b.runState = .running ∧ Executes b .ret := by
  refine ⟨at' 0 [0x0012010000000002, 0x0014000000000000, 0x0015000000000000, 0x0013000000000000] [], _, _, rfl,
    executes_of _ rfl rfl, rfl, rfl, rfl, ?_, rfl, rfl, executes_of _ rfl rfl⟩
  intro j u hj h
  match j, hj with
  | 0, _ => cases h; exact Nat.le_refl _
  | 1, _ => cases h; exact Nat.le_refl _

/-- The trap numbers `15`, `16` and `-1`, with the default handlers. -/
theorem witness_TrapLogsItsNumberOrFaults :
    (15 : Word).toInt = ((15 : TrapNumber).val : Int) ∧ (start 0 [] []).trapTable.get 15 = .diagnostic ∧
      16 ≤ (16 : Word).toInt ∧ (-1 : Word).toInt < 0 := by decide

theorem witness_TrapHangsWithItsHandler :
    (0 : Word).toInt = ((0 : TrapNumber).val : Int) ∧
      ({ start 0 [] [] with trapTable := Vector.replicate 16 .neverCompletes } : State).trapTable.get 0 =
        .neverCompletes := by decide

/-- The first and the last cell. -/
theorem witness_ResetGivesEveryResetValue :
    (0 : Int) < (State.reset.memSize : Int) ∧ (65535 : Int) < (State.reset.memSize : Int) := by decide

theorem witness_ControlPortInReadyAlone :
    State.reset.runState = .ready ∧ ∃ t, hostAct .start State.reset = some t := ⟨rfl, _, rfl⟩

theorem witness_BootFetchesIndexZero : ([0x0015000000000000] : List InstrWord).length ≤ 2147483647 := by decide

/-- In range at 0 and at `MEM_SIZE - 1`; out of range at `-1` and at `MEM_SIZE`. -/
theorem witness_MemoryPortReadsBackItsWrite :
    State.reset.runState = .ready ∧ State.reset.memory.wf = true ∧ (0 : Int) < (State.reset.memSize : Int) ∧
      (65535 : Int) < (State.reset.memSize : Int) ∧ (-1 : Int) < 0 ∧ (State.reset.memSize : Int) ≤ 65536 := by decide

theorem witness_MirrorHoldsTheOpcodeCodes :
    ∃ s : State, s.runState = .ready ∧ s.memory.wf = true ∧ 0 < s.memSize ∧ s.program[0]? = some 0x0015000000000000 :=
  ⟨State.resetWith [0x0015000000000000] (Vector.replicate 16 .diagnostic) 1 none, by decide⟩

end Sys2Proof.Tests
end

section
/-! PROOFS. What each way an instruction ends leaves in the pc, the jump conditions in bit-vector form, the pc rule of
every instruction (10_state.md R26), and the state after the host's reset (10_state.md R42). -/

namespace Sys2Proof.Machine

/-! ### The pc, by the way an instruction ends -/

theorem runState_of_takeFault {k : FaultKind} {s t : State} (h : takeFault k s = .next t) : t.runState = .faulted := by
  rw [takeFault_eq, Host.Outcome.next.injEq] at h
  rw [← h, State.raise_runState]

theorem pc_of_sequential {s t : State} (h : sequential s = .next t) : t.pc = s.pc + 1 := by
  rw [sequential_eq, Host.Outcome.next.injEq] at h
  rw [← h, State.pc_advance, wrap32_add_one]

theorem pc_of_redirect {x : Word} {s t : State} (h : redirect x s = .next t) : t.pc = x := by
  rw [redirect_eq, Host.Outcome.next.injEq] at h
  rw [← h, State.pc_setPc]

theorem pc_of_branch {taken : Bool} {P : Prop} [Decidable P] {x : Word} {s t : State} (hP : taken = true ↔ P)
    (h : branch taken x s = .next t) : t.pc = if P then x else s.pc + 1 := by
  unfold branch at h
  by_cases p : P
  · rw [if_pos (hP.2 p)] at h
    rw [if_pos p, pc_of_redirect h]
  · rw [if_neg (mt hP.1 p)] at h
    rw [if_neg p, pc_of_sequential h]

/-- R15 as the destination takes the result and is then incremented (10_state.md R28); `v` need be the result in that
case alone. -/
theorem pc_of_writeBack {ra : RegIdx} {u v : Word} {s t : State} (hv : ra = 15 → u = v)
    (h : writeBack ra u s = .next t) : t.pc = (if ra = 15 then v else s.pc) + 1 := by
  rw [writeBack_eq, Host.Outcome.next.injEq] at h
  rw [← h, State.pc_eq_reg, reg_writeBack, if_pos rfl, wrap32_add_one]
  by_cases e : ra = 15
  · rw [if_pos e, if_pos e, hv e]
  · rw [if_neg e, if_neg e]

/-! ### The jump conditions, in the operations of bit vectors -/

section conditions
variable (s : State)

theorem condZero_iff : condZero s = true ↔ s.reg 0 = 0 := by simp [condZero, word_ext_toInt]

theorem condNotZero_iff : condNotZero s = true ↔ s.reg 0 ≠ 0 := by simp [condNotZero, word_ext_toInt]

theorem condEqual_iff : condEqual s = true ↔ s.reg 0 = s.reg 1 := by simp [condEqual, word_ext_toInt]

theorem condNotEqual_iff : condNotEqual s = true ↔ s.reg 0 ≠ s.reg 1 := by simp [condNotEqual, word_ext_toInt]

theorem condLess_iff : condLess s = true ↔ (s.reg 0).slt (s.reg 1) = true := Iff.rfl

theorem condLessEqual_iff : condLessEqual s = true ↔ (s.reg 0).sle (s.reg 1) = true := Iff.rfl

theorem condGreater_iff : condGreater s = true ↔ (s.reg 1).slt (s.reg 0) = true := Iff.rfl

theorem condGreaterEqual_iff : condGreaterEqual s = true ↔ (s.reg 1).sle (s.reg 0) = true := Iff.rfl

end conditions

/-! ### The pc rule of every instruction -/

/-- In `Running`, an instruction ends in `Faulted` only by a fault entry, and that leaves the pc. -/
theorem pc_of_exec_faulted {i : Instr} {s t : State} (hr : s.runState = .running) (h : exec i s = .next t)
    (hf : t.runState = .faulted) : t.pc = s.pc := by
  obtain ⟨K, -, rfl⟩ | ⟨-, rfl⟩ | ⟨-, regs, stack, trapLog, rfl, -⟩ := exec_next_cases h
  · exact State.pc_raise s K
  · rfl
  · rw [hr] at hf
    cases hf

open Sys2Proof.Claims in
/-- An instruction that completes without a fault moves the pc by its rule (10_state.md R26). -/
theorem pcRule_of_exec {i : Instr} {s t : State} (h : exec i s = .next t) (hf : t.runState ≠ .faulted) :
    PcRule s t i := by
  have noFault {k : FaultKind} (e : takeFault k s = .next t) : False := hf (runState_of_takeFault e)
  cases i with
  | add ra rb => exact pc_of_writeBack (by rintro rfl; exact wrap32_add ..) h
  | sub ra rb => exact pc_of_writeBack (by rintro rfl; exact wrap32_sub ..) h
  | mul ra rb => exact pc_of_writeBack (by rintro rfl; exact wrap32_mul ..) h
  | mov ra rb => exact pc_of_writeBack (fun _ => rfl) h
  | cmp ra rb => exact pc_of_writeBack (ra := flagReg) (fun _ => rfl) h
  | div ra rb =>
    simp only [exec, execDiv] at h
    split at h
    · exact (noFault h).elim
    · exact pc_of_writeBack (by rintro rfl; exact wrap32_tdiv ..) h
  | jmp x => exact pc_of_redirect h
  | jz x => exact pc_of_branch (condZero_iff s) h
  | jnz x => exact pc_of_branch (condNotZero_iff s) h
  | je x => exact pc_of_branch (condEqual_iff s) h
  | jne x => exact pc_of_branch (condNotEqual_iff s) h
  | jl x => exact pc_of_branch (condLess_iff s) h
  | jle x => exact pc_of_branch (condLessEqual_iff s) h
  | jg x => exact pc_of_branch (condGreater_iff s) h
  | jge x => exact pc_of_branch (condGreaterEqual_iff s) h
  | push ra =>
    simp only [exec, execPush] at h
    split at h
    · exact (noFault h).elim
    · simpa only [PcRule, State.pc_push] using pc_of_sequential h
  | call x =>
    simp only [exec, execCall] at h
    split at h
    · exact (noFault h).elim
    · exact pc_of_redirect h
  | pop ra =>
    simp only [exec, execPop] at h
    split at h
    · exact (noFault h).elim
    · next v s' hp =>
      obtain ⟨rest, hs, rfl⟩ := State.pop_eq_some_iff.1 hp
      have hpc := pc_of_writeBack (fun _ => rfl) h
      exact ⟨v, rest, hs, hpc⟩
  | ret =>
    simp only [exec, execRet] at h
    split at h
    · exact (noFault h).elim
    · next v s' hp =>
      obtain ⟨rest, hs, rfl⟩ := State.pop_eq_some_iff.1 hp
      exact ⟨rest, pc_of_redirect h ▸ hs⟩
  | hlt =>
    cases h
    rfl
  | nop => exact pc_of_sequential h
  | trap n =>
    simp only [exec, execTrap] at h
    split at h
    · exact (noFault h).elim
    · split at h
      · simpa only [PcRule, State.pc_logTrap] using pc_of_sequential h
      · cases h

/-! ### Reset -/

theorem State.memRead_resetWith (p : List InstrWord) (tt : Vector Handler 16) {m : Nat} (c : Option Nat) {a : Int}
    (h0 : 0 ≤ a) (h1 : a < (m : Int)) : (State.resetWith p tt m c).memRead a = some 0 := by
  have hsel : (State.resetWith p tt m c).selectCell a = some a.toNat := if_pos ⟨h0, h1⟩
  rw [State.memRead, hsel]
  rfl

end Sys2Proof.Machine

/-- Settles O23: a fault entry leaves the pc, and every other end of an instruction follows its pc rule. -/
theorem pcEffectOfEveryInstruction : Obligations.PcEffectOfEveryInstruction := by
  unfold Obligations.PcEffectOfEveryInstruction
  intro i s t hr h
  exact ⟨Sys2Proof.Machine.pc_of_exec_faulted hr h, Sys2Proof.Machine.pcRule_of_exec h⟩

/-- Settles O52: the state after the host's reset is `State.resetWith` under the configuration kept. -/
theorem resetGivesEveryResetValue : Obligations.ResetGivesEveryResetValue := by
  unfold Obligations.ResetGivesEveryResetValue
  intro s
  refine ⟨s.hostReset, rfl, ?regs, rfl, rfl, rfl, rfl, rfl, ?memory, rfl, rfl, rfl, rfl⟩
  case regs => exact Sys2Proof.Machine.State.reg_resetWith _ _ _ _
  case memory => exact fun a => Sys2Proof.Machine.State.memRead_resetWith _ _ _
end

section
/-! PROOFS. Fetch by Program index and its fault (20_memory.md R53, 40_execution_cycle.md R101), and the Memory port: what
a read sees of a write, and what is refused (20_memory.md R54). -/

namespace Sys2Proof.Machine

/-! ### Fetch -/

/-- A fetched word stands at the index that R15, read signed, names. -/
theorem State.fetch_eq_some_iff_index {s : State} {w : InstrWord} :
    s.fetch = some w ↔ ∃ i : Nat, (s.reg 15).toInt = (i : Int) ∧ i < s.program.length ∧ s.program[i]? = some w := by
  rw [State.fetch_eq_some_iff, State.pc_eq_reg]
  constructor
  · rintro ⟨hpc, hw⟩
    exact ⟨_, (Int.toNat_of_nonneg hpc).symm, (List.getElem?_eq_some_iff.1 hw).1, hw⟩
  · rintro ⟨i, hpc, -, hw⟩
    rw [hpc]
    exact ⟨Int.natCast_nonneg i, hw⟩

theorem step_of_fetch_eq_none {s : State} (hr : s.runState = .running) (hf : s.fetch = none) :
    step s = .next (s.raise .fetchOutOfBounds) := by
  rw [step_of_running hr, hf, takeFault_eq]

/-- What `raise` leaves is the fault entry of 60_exceptions.md R190, whatever the kind. -/
theorem isFaultEntry_raise (K : FaultKind) (s : State) : Claims.IsFaultEntry K s (s.raise K) :=
  have configuration : Claims.SameConfiguration s (s.raise K) := ⟨rfl, rfl, rfl, rfl⟩
  ⟨rfl, rfl, rfl, State.reg_raise s K, rfl, rfl, configuration, State.memRead_raise s K⟩

/-! ### The Memory port -/

section port
variable {s t : State} {a : Int} {v : Word}

theorem State.memRead_eq_none : s.memRead a = none ↔ a < 0 ∨ (s.memSize : Int) ≤ a := by
  rw [State.memRead, Option.map_eq_none_iff, State.selectCell_eq_none]

theorem State.memWrite_eq_none : s.memWrite a v = none ↔ a < 0 ∨ (s.memSize : Int) ≤ a := by
  rw [State.memWrite, Option.map_eq_none_iff, State.selectCell_eq_none]

/-- `MemRead(a, 1)` in range is the cell `a` of the canonical list. -/
theorem State.memRead_of_inRange (h0 : 0 ≤ a) (h1 : a < (s.memSize : Int)) :
    s.memRead a = some (s.memory.read a.toNat) := by
  rw [State.memRead, State.selectCell_eq_some.2 ⟨h0, h1, rfl⟩, Option.map_some]

/-- The part of an accepted write that a read can see. -/
theorem State.memory_of_memWrite (h : s.memWrite a v = some t) :
    (0 ≤ a ∧ a < (s.memSize : Int)) ∧ t.memory = s.memory.write a.toNat v ∧ t.memSize = s.memSize := by
  obtain ⟨hin, rfl⟩ := State.memWrite_eq_some.1 h
  exact ⟨hin, rfl, rfl⟩

theorem State.memRead_memWrite_self (hm : s.memory.wf = true) (h : s.memWrite a v = some t) : t.memRead a = some v := by
  obtain ⟨⟨h0, h1⟩, hmem, hsize⟩ := State.memory_of_memWrite h
  rw [State.memRead_of_inRange h0 (hsize ▸ h1), hmem, Memory.read_write_self hm]

/-- Every other address reads as before, one out of range too: the write moves no bound. -/
theorem State.memRead_memWrite_ne {b : Int} (hb : b ≠ a) (h : s.memWrite a v = some t) : t.memRead b = s.memRead b := by
  obtain ⟨⟨h0, -⟩, hmem, hsize⟩ := State.memory_of_memWrite h
  by_cases hr : 0 ≤ b ∧ b < (s.memSize : Int)
  · obtain ⟨hb0, hb1⟩ := hr
    have hcell : b.toNat ≠ a.toNat := by omega
    rw [State.memRead_of_inRange hb0 (hsize ▸ hb1), State.memRead_of_inRange hb0 hb1, hmem,
      Memory.read_write_ne _ v hcell]
  · have hout : b < 0 ∨ (s.memSize : Int) ≤ b := by omega
    rw [State.memRead_eq_none.2 (hsize ▸ hout), State.memRead_eq_none.2 hout]

theorem State.memory_wf_memWrite (hm : s.memory.wf = true) (h : s.memWrite a v = some t) : t.memory.wf = true := by
  obtain ⟨-, hmem, -⟩ := State.memory_of_memWrite h
  exact hmem ▸ Memory.wf_write hm _ v

/-- In `Ready` the host's write command is the Memory port's write (10_state.md R40). -/
theorem hostAct_memWrite_of_ready (hr : s.runState = .ready) : hostAct (.memWrite a v) s = s.memWrite a v :=
  if_pos hr

end port

end Sys2Proof.Machine

/-- Settles O56: an accepted write changes cell `a` of the canonical list alone, and the address decoder refuses exactly
the addresses out of range, for a write and for a read. -/
theorem memoryPortReadsBackItsWrite : Obligations.MemoryPortReadsBackItsWrite := by
  unfold Obligations.MemoryPortReadsBackItsWrite
  intro s a v hready hm
  rw [Sys2Proof.Machine.hostAct_memWrite_of_ready hready]
  constructor
  · intro hin
    have hw := Sys2Proof.Machine.State.memWrite_eq_some (v := v).2 ⟨hin, rfl⟩
    refine ⟨_, hw, ?self, ?others, ?canonical, fun _ => rfl, rfl, rfl, ⟨rfl, rfl, rfl⟩, ⟨rfl, rfl, rfl, rfl⟩⟩
    case self => exact Sys2Proof.Machine.State.memRead_memWrite_self hm hw
    case others => exact fun b hb => Sys2Proof.Machine.State.memRead_memWrite_ne hb hw
    case canonical => exact Sys2Proof.Machine.State.memory_wf_memWrite hm hw
  · intro hout
    exact ⟨Sys2Proof.Machine.State.memWrite_eq_none.2 hout, Sys2Proof.Machine.State.memRead_eq_none.2 hout⟩

/-- Settles O12: Fetch answers by the index in R15, and a step whose Fetch answers nothing is a fault entry. -/
theorem fetchIsInBoundsOrFaults : Obligations.FetchIsInBoundsOrFaults := by
  unfold Obligations.FetchIsInBoundsOrFaults
  intro s hr
  have hnone : s.fetch = none ↔ (s.reg 15).toInt < 0 ∨ (s.program.length : Int) ≤ (s.reg 15).toInt :=
    Sys2Proof.Machine.State.fetch_eq_none_iff
  refine ⟨fun w => Sys2Proof.Machine.State.fetch_eq_some_iff_index, hnone, fun hout => ?_⟩
  have hstep := Sys2Proof.Machine.step_of_fetch_eq_none hr (hnone.2 hout)
  exact ⟨_, hstep, Sys2Proof.Machine.isFaultEntry_raise .fetchOutOfBounds s⟩
end

section
/-! PROOFS. The Instruction Set Table of 30_encoding.md R76, and the two causes of DecodeError: an opcode outside the
table (R79) and an operand count other than the table's (R80), in the word form, the structure form and a step. -/

namespace Sys2Proof

/-! ### The codes and the counts of the table -/

/-- The table's codes are `0x0001 .. 0x0016` without a gap (30_encoding.md R77). -/
theorem Opcode.ofCode_eq_none_iff {c : BitVec 16} : Opcode.ofCode c = none ↔ c.toNat = 0 ∨ 23 ≤ c.toNat := by
  constructor
  · intro h
    unfold Opcode.ofCode at h
    split at h
    case h_23 =>
      simp only [imp_false] at *
      omega
    all_goals cases h
  · intro h
    cases hop : Opcode.ofCode c with
    | none => rfl
    | some op =>
      have inTable : 1 ≤ op.code.toNat ∧ op.code.toNat ≤ 22 := by cases op <;> decide
      rw [Opcode.ofCode_eq_some hop] at h
      omega

theorem Format.arity_lt_three (f : Format) : f.arity < 3 := by cases f <;> decide

/-! ### What the decoder rejects -/

theorem decode_of_ofCode_eq_some {w : InstrWord} {op : Opcode} (h : Opcode.ofCode (opcodeField w) = some op) :
    decode w =
      if (nopsField w).toNat = op.arity then .ok (op.assemble (payloadField w)) else .error .operandCount := by
  rw [decode, h]

/-- The opcode is tested first, so this answer depends on it alone (30_encoding.md R79). -/
theorem decode_eq_unknownOpcode_iff {w : InstrWord} :
    decode w = .error .unknownOpcode ↔ Opcode.ofCode (opcodeField w) = none := by
  cases h : Opcode.ofCode (opcodeField w) with
  | none => simp [decode, h]
  | some op =>
    rw [decode_of_ofCode_eq_some h]
    split <;> simp

theorem decode_eq_operandCount_iff {w : InstrWord} {op : Opcode} (h : Opcode.ofCode (opcodeField w) = some op) :
    decode w = .error .operandCount ↔ (nopsField w).toNat ≠ op.arity := by
  rw [decode_of_ofCode_eq_some h]
  split
  · next heq => simp [heq]
  · next hne => simp [hne]

/-- The count is checked before kinds and ranges: a list of another length is rejected whatever its operands are
(30_encoding.md R80). -/
theorem Format.payloadOf_of_length_ne {f : Format} {ops : List Operand} (h : ops.length ≠ f.arity) :
    f.payloadOf ops = .error .operandCount :=
  match f, ops with
  | .Z, [] | .R, [_] | .I, [_] | .RR, [_, _] => absurd rfl h
  | .Z, _ :: _ | .R, [] | .I, [] | .RR, [] => rfl
  | .R, _ :: _ :: _ | .I, _ :: _ :: _ | .RR, [_] | .RR, _ :: _ :: _ :: _ => by simp [Format.payloadOf]

theorem ofDecoded_of_length_ne {d : DecodedInstruction} {op : Opcode} (hop : Opcode.ofCode d.opcode = some op)
    (hlen : d.operands.length ≠ op.arity) : ofDecoded d = .error .operandCount := by
  rw [ofDecoded, hop]
  simp only [Format.payloadOf_of_length_ne hlen, Except.map]

namespace Machine

/-- A fetched word that the decoder rejects, for whichever cause, is the fault entry of DecodeError (60_exceptions.md
R181, R190). -/
theorem step_of_decode_eq_error {s : State} {w : InstrWord} {e : DecodeReject} (hr : s.runState = .running)
    (hf : s.fetch = some w) (hd : decode w = .error e) :
    ∃ t, step s = .next t ∧ Claims.IsFaultEntry .decodeError s t := by
  refine ⟨s.raise .decodeError, ?_, isFaultEntry_raise .decodeError s⟩
  simp only [step_of_running hr, hf, hd, takeFault_eq]

end Machine

end Sys2Proof

/-- Settles O6: the decoder answers `unknownOpcode` by the opcode field alone, and a step takes that answer as a fault
entry. -/
theorem unknownOpcodeIsDecodeError : Obligations.UnknownOpcodeIsDecodeError := by
  unfold Obligations.UnknownOpcodeIsDecodeError
  intro w
  have hiff := (Sys2Proof.decode_eq_unknownOpcode_iff (w := w)).trans Sys2Proof.Opcode.ofCode_eq_none_iff
  exact ⟨hiff, fun s hr hf hout => Sys2Proof.Machine.step_of_decode_eq_error hr hf (hiff.2 hout)⟩

/-- Settles O7: the word form and its step, the structure form, and the bound on the table's counts. -/
theorem operandCountMismatchIsDecodeError : Obligations.OperandCountMismatchIsDecodeError := by
  unfold Obligations.OperandCountMismatchIsDecodeError
  refine ⟨fun w op hop => ?word, fun d op => ?structureForm, fun op => op.format.arity_lt_three⟩
  case word =>
    have hiff := Sys2Proof.decode_eq_operandCount_iff hop
    exact ⟨hiff, fun s hr hf hne => Sys2Proof.Machine.step_of_decode_eq_error hr hf (hiff.2 hne)⟩
  case structureForm => exact Sys2Proof.ofDecoded_of_length_ne

/-- Settles O3: both columns are closed terms, and the table is the map of `Opcode.spec` over the opcodes in order. -/
theorem instructionSetTableRows : Obligations.InstructionSetTableRows := by
  unfold Obligations.InstructionSetTableRows
  exact ⟨rfl, rfl⟩
end

section
/-! PROOFS. The word forms of 30_encoding.md as encodings and the decoder on an encoding (R83), what a write-back leaves
(10_state.md R28), the quotient rounded toward zero (41_arithmetic.md R125), and the four instructions of
41_arithmetic.md. -/

namespace Sys2Proof

/-! ### The decoder on an encoding -/

@[simp] theorem Instr.assemble_payload (i : Instr) : i.opcode.assemble i.payload = i := by
  cases i <;> simp [Instr.opcode, Instr.payload, Opcode.assemble]

/-- Decoding undoes encoding (30_encoding.md R83): each field of the word is read back as it was packed. -/
@[simp] theorem decode_encode (i : Instr) : decode (encode i) = .ok i := by
  have hcount : i.opcode.arity < 3 := i.opcode.format.arity_lt_three
  refine decode_eq_ok_iff.2 ⟨?opcode, ?nops, ?operands⟩
  case opcode => exact opcodeField_packWord ..
  case nops =>
    rw [encode, nopsField_packWord, BitVec.toNat_ofNat]
    omega
  case operands => rw [encode, payloadField_packWord, Instr.assemble_payload]

/-! ### The word forms of the statements as encodings -/

/-- A payload may be put into a packed word after its head: the head's payload bits are 0 (30_encoding.md R72). -/
theorem packWord_zero_or (c : BitVec 16) (n : BitVec 8) (p : Word) :
    packWord c n 0 ||| p.setWidth 64 = packWord c n p := by
  apply BitVec.eq_of_getLsbD_eq
  intro i hi
  rw [BitVec.getLsbD_or, getLsbD_packWord, getLsbD_packWord, BitVec.getLsbD_setWidth]
  by_cases h : i < 32
  · simp [h, hi]
  · simp [h, BitVec.getLsbD_of_ge p i (by omega)]

/-- The two register digits of a word are the payload of format `RR` (30_encoding.md R73). -/
theorem setWidth_payloadRR (ra rb : RegIdx) :
    (payloadRR ra rb).setWidth 64 = BitVec.ofNat 64 (16 * ra.val + rb.val) := by
  revert ra rb; decide

open Claims in
/-- The row's `match` bits (30_encoding.md R84) with two register digits are an encoding. -/
theorem wordRR_eq_encode {head : InstrWord} {op : Opcode} {ra rb : RegIdx} {i : Instr}
    (hhead : head = op.spec.matchBits) (hop : i.opcode = op) (hpayload : i.payload = payloadRR ra rb) :
    wordRR head ra rb = encode i := by
  rw [wordRR, hhead, ← setWidth_payloadRR, Opcode.spec, packWord_zero_or, ← hop, ← hpayload, encode]

open Claims in
theorem decode_wordRR {head : InstrWord} {op : Opcode} {ra rb : RegIdx} {i : Instr} (hhead : head = op.spec.matchBits)
    (hop : i.opcode = op) (hpayload : i.payload = payloadRR ra rb) : decode (wordRR head ra rb) = .ok i := by
  rw [wordRR_eq_encode hhead hop hpayload, decode_encode]

/-! ### The quotient rounded toward zero -/

/-- The remainder of truncated division has the sign of the dividend. -/
theorem tmod_mul_self_nonneg (a b : Int) : 0 ≤ a.tmod b * a := by
  obtain ha | ha := le_total 0 a
  · exact mul_nonneg (Int.tmod_nonneg b ha) ha
  · have hneg : 0 ≤ (-a).tmod b := Int.tmod_nonneg b (neg_nonneg.2 ha)
    rw [Int.neg_tmod, neg_nonneg] at hneg
    exact mul_nonneg_of_nonpos_of_nonpos hneg ha

/-- `Int.tdiv` rounds as 41_arithmetic.md R125 says; its remainder is `Int.tmod`. -/
theorem isTruncatedQuotient_tdiv (a : Int) {b : Int} (hb : b ≠ 0) : Claims.IsTruncatedQuotient a b (a.tdiv b) := by
  refine ⟨a.tmod b, (Int.tdiv_mul_add_tmod a b).symm, ?smaller, tmod_mul_self_nonneg a b⟩
  rw [Int.natAbs_tmod]
  exact Nat.mod_lt _ (Int.natAbs_pos.2 hb)

namespace Machine

open Claims

/-! ### What a write-back leaves -/

theorem writesThenAdvances_setReg_advance (s : State) (ra : RegIdx) (v : Word) :
    WritesThenAdvances s (s.setReg ra v).advance ra v := by
  refine ⟨fun j hra h15 => ?others, fun hra => ⟨?destination, ?pc⟩, fun hra => ?r15⟩
  case others => rw [reg_writeBack, if_neg h15, if_neg hra]
  case destination => rw [reg_writeBack, if_neg hra, if_pos rfl]
  case pc =>
    rw [reg_writeBack, if_pos rfl, if_neg hra]
    exact dvd_wrap32 _
  case r15 =>
    rw [reg_writeBack, if_pos rfl, if_pos hra]
    exact dvd_wrap32 _

theorem sameBeyondRegisters_setReg_advance (s : State) (ra : RegIdx) (v : Word) :
    SameBeyondRegisters s (s.setReg ra v).advance :=
  ⟨rfl, rfl, ⟨rfl, rfl, rfl⟩, ⟨rfl, rfl, rfl, rfl⟩,
    fun a => (State.memRead_advance _ a).trans (State.memRead_setReg s ra v a)⟩

/-- The end that the arithmetic instructions share: the exact result `z` is narrowed, written back, and the pc
advances. -/
theorem writeBack_wrap32 (ra : RegIdx) (z : Int) (s : State) :
    ∃ v t, writeBack ra (wrap32 z) s = .next t ∧ IsWrapOf v z ∧ WritesThenAdvances s t ra v ∧
      SameBeyondRegisters s t :=
  ⟨wrap32 z, _, writeBack_eq .., dvd_wrap32 z, writesThenAdvances_setReg_advance s ra _,
    sameBeyondRegisters_setReg_advance s ra _⟩

/-! ### Execute, for the four instructions -/

section execute
variable (ra rb : RegIdx) (s : State)

theorem exec_add : exec (.add ra rb) s = writeBack ra (wrap32 ((s.reg ra).toInt + (s.reg rb).toInt)) s := rfl

theorem exec_sub : exec (.sub ra rb) s = writeBack ra (wrap32 ((s.reg ra).toInt - (s.reg rb).toInt)) s := rfl

theorem exec_mul : exec (.mul ra rb) s = writeBack ra (wrap32 ((s.reg ra).toInt * (s.reg rb).toInt)) s := rfl

variable {rb s}

theorem exec_div_of_ne_zero (h : (s.reg rb).toInt ≠ 0) :
    exec (.div ra rb) s = writeBack ra (wrap32 ((s.reg ra).toInt.tdiv (s.reg rb).toInt)) s := if_neg h

theorem exec_div_of_eq_zero (h : (s.reg rb).toInt = 0) : exec (.div ra rb) s = .next (s.raise .divideByZero) := if_pos h

end execute

end Machine

end Sys2Proof

open Sys2Proof Sys2Proof.Machine

/-- Settles O28: the word is ADD's encoding, and Execute is the write-back of the wrapped sum. -/
theorem addWritesTheWrappedSum : Obligations.AddWritesTheWrappedSum := by
  unfold Obligations.AddWritesTheWrappedSum
  intro ra rb s
  rw [exec_add]
  exact ⟨decode_wordRR (op := .add) (by decide) rfl rfl, writeBack_wrap32 ra _ s⟩

/-- Settles O29: the word is SUB's encoding, and Execute is the write-back of the wrapped difference. -/
theorem subWritesTheWrappedDifference : Obligations.SubWritesTheWrappedDifference := by
  unfold Obligations.SubWritesTheWrappedDifference
  intro ra rb s
  rw [exec_sub]
  exact ⟨decode_wordRR (op := .sub) (by decide) rfl rfl, writeBack_wrap32 ra _ s⟩

/-- Settles O30: the word is MUL's encoding, and Execute is the write-back of the wrapped product. -/
theorem mulWritesTheWrappedProduct : Obligations.MulWritesTheWrappedProduct := by
  unfold Obligations.MulWritesTheWrappedProduct
  intro ra rb s
  rw [exec_mul]
  exact ⟨decode_wordRR (op := .mul) (by decide) rfl rfl, writeBack_wrap32 ra _ s⟩

/-- Settles O31: by a divisor that is not 0 the wrapped `Int.tdiv` is written back; by 0 the step is a fault entry. -/
theorem divTruncatesOrFaults : Obligations.DivTruncatesOrFaults := by
  unfold Obligations.DivTruncatesOrFaults
  intro ra rb s
  refine ⟨decode_wordRR (op := .div) (by decide) rfl rfl, fun hne => ?quotient, fun hzero => ?fault⟩
  case quotient =>
    obtain ⟨v, t, hexec, hwrap, hwrites, hsame⟩ := writeBack_wrap32 ra ((s.reg ra).toInt.tdiv (s.reg rb).toInt) s
    rw [exec_div_of_ne_zero ra hne]
    exact ⟨_, v, t, hexec, isTruncatedQuotient_tdiv _ hne, hwrap, hwrites, hsame⟩
  case fault => exact ⟨_, exec_div_of_eq_zero ra hzero, isFaultEntry_raise .divideByZero s⟩
end

section
/-! PROOFS. MOV: Execute is the write-back of the source register as it is before the write, so that R15 as the source
reads `pc0` and R15 as the destination is written and then incremented (42_move_compare.md R130). -/

namespace Sys2Proof.Machine

theorem exec_mov (ra rb : RegIdx) (s : State) : exec (.mov ra rb) s = writeBack ra (s.reg rb) s := rfl

end Sys2Proof.Machine

open Sys2Proof Sys2Proof.Machine

/-- Settles O33: the word is MOV's encoding, and Execute is the write-back of the source's value. -/
theorem movCopiesTheSource : Obligations.MovCopiesTheSource := by
  unfold Obligations.MovCopiesTheSource
  intro ra rb s
  refine ⟨decode_wordRR (op := .mov) (by decide) rfl rfl, (s.setReg ra (s.reg rb)).advance, ?executes, ?registers, ?rest⟩
  case executes => rw [exec_mov, writeBack_eq]
  case registers => exact writesThenAdvances_setReg_advance s ra (s.reg rb)
  case rest => exact sameBeyondRegisters_setReg_advance s ra (s.reg rb)
end

section
/-! PROOFS. The nine jumps of 43_jumps.md: the word form of format `I` as an encoding, what a redirect and an Advance
leave, and Execute of each jump as a branch on its condition over the signed values of R0 and R1 (R142 to R149). -/

namespace Sys2Proof

open Claims

/-! ### The word form of format `I` -/

/-- The row's `match` bits (30_encoding.md R84) with an immediate are an encoding. -/
theorem wordI_eq_encode {head : InstrWord} {op : Opcode} {t : Word} {i : Instr} (hhead : head = op.spec.matchBits)
    (hop : i.opcode = op) (hpayload : i.payload = t) : wordI head t = encode i := by
  rw [wordI, hhead, BitVec.ofNat_toNat, Opcode.spec, packWord_zero_or, ← hop, ← hpayload, encode]

theorem decode_wordI {head : InstrWord} {op : Opcode} {t : Word} {i : Instr} (hhead : head = op.spec.matchBits)
    (hop : i.opcode = op) (hpayload : i.payload = t) : decode (wordI head t) = .ok i := by
  rw [wordI_eq_encode hhead hop hpayload, decode_encode]

namespace Machine

/-! ### What a redirect and an Advance leave -/

theorem onlyPcBecomes_setPc (s : State) (t : Word) : OnlyPcBecomes s (s.setPc t) t :=
  ⟨State.pc_setPc s t, fun j h15 => by rw [State.reg_setPc, if_neg h15]⟩

theorem sameBeyondRegisters_setPc (s : State) (t : Word) : SameBeyondRegisters s (s.setPc t) :=
  ⟨rfl, rfl, ⟨rfl, rfl, rfl⟩, ⟨rfl, rfl, rfl, rfl⟩, State.memRead_setPc s t⟩

/-- Advance writes the pc alone (40_execution_cycle.md R106), so what holds of `setPc` holds of it. -/
theorem State.advance_eq_setPc (s : State) : s.advance = s.setPc (wrap32 (s.pc.toInt + 1)) := rfl

theorem onlyAdvances_advance (s : State) : OnlyAdvances s s.advance := by
  obtain ⟨hpc, hothers⟩ := onlyPcBecomes_setPc s (wrap32 (s.pc.toInt + 1))
  rw [State.advance_eq_setPc, OnlyAdvances, hpc]
  exact ⟨dvd_wrap32 _, hothers⟩

theorem sameBeyondRegisters_advance (s : State) : SameBeyondRegisters s s.advance :=
  sameBeyondRegisters_setPc s _

/-- The end that the conditional jumps share (43_jumps.md R140). -/
theorem branch_jumpsWhen (P : Prop) [Decidable P] (t : Word) (s : State) :
    ∃ u, branch (decide P) t s = .next u ∧ JumpsWhen P t s u := by
  by_cases hP : P
  case pos =>
    have htaken : branch (decide P) t s = .next (s.setPc t) := by rw [branch_eq, if_pos (decide_eq_true hP)]
    exact ⟨_, htaken, fun _ => onlyPcBecomes_setPc s t, fun hnot => absurd hP hnot, sameBeyondRegisters_setPc s t⟩
  case neg =>
    have hfalls : branch (decide P) t s = .next s.advance := by
      rw [branch_eq, decide_eq_false hP, if_neg Bool.false_ne_true]
    exact ⟨_, hfalls, fun h => absurd h hP, fun _ => onlyAdvances_advance s, sameBeyondRegisters_advance s⟩

/-! ### Execute, for the nine jumps -/

section execute
variable (t : Word) (s : State)

theorem exec_jmp : exec (.jmp t) s = .next (s.setPc t) := redirect_eq t s

theorem exec_jz : exec (.jz t) s = branch (decide ((s.reg 0).toInt = 0)) t s := rfl

theorem exec_jnz : exec (.jnz t) s = branch (decide ((s.reg 0).toInt ≠ 0)) t s := rfl

theorem exec_je : exec (.je t) s = branch (decide ((s.reg 0).toInt = (s.reg 1).toInt)) t s := rfl

theorem exec_jne : exec (.jne t) s = branch (decide ((s.reg 0).toInt ≠ (s.reg 1).toInt)) t s := rfl

theorem exec_jl : exec (.jl t) s = branch (decide ((s.reg 0).toInt < (s.reg 1).toInt)) t s := rfl

theorem exec_jle : exec (.jle t) s = branch (decide ((s.reg 0).toInt ≤ (s.reg 1).toInt)) t s := rfl

theorem exec_jg : exec (.jg t) s = branch (decide ((s.reg 1).toInt < (s.reg 0).toInt)) t s := rfl

theorem exec_jge : exec (.jge t) s = branch (decide ((s.reg 1).toInt ≤ (s.reg 0).toInt)) t s := rfl

end execute

end Machine

end Sys2Proof

open Sys2Proof Sys2Proof.Machine

/-- Settles O37: the word is JMP's encoding, and Execute writes the pc alone. -/
theorem jmpRedirects : Obligations.JmpRedirects := by
  unfold Obligations.JmpRedirects
  intro t s
  exact ⟨decode_wordI (op := .jmp) (by decide) rfl rfl, s.setPc t, exec_jmp t s, onlyPcBecomes_setPc s t,
    sameBeyondRegisters_setPc s t⟩

/-- Settles O38: the words are encodings, and both jumps are branches on R0 against 0. -/
theorem jzAndJnzConsultR0 : Obligations.JzAndJnzConsultR0 := by
  unfold Obligations.JzAndJnzConsultR0
  intro t s
  rw [exec_jz, exec_jnz]
  exact ⟨decode_wordI (op := .jz) (by decide) rfl rfl, decode_wordI (op := .jnz) (by decide) rfl rfl,
    branch_jumpsWhen _ t s, branch_jumpsWhen _ t s⟩

/-- Settles O39: the words are encodings, and both jumps are branches on the equality of R0 and R1. -/
theorem jeAndJneCompareR0WithR1 : Obligations.JeAndJneCompareR0WithR1 := by
  unfold Obligations.JeAndJneCompareR0WithR1
  intro t s
  rw [exec_je, exec_jne]
  exact ⟨decode_wordI (op := .je) (by decide) rfl rfl, decode_wordI (op := .jne) (by decide) rfl rfl,
    branch_jumpsWhen _ t s, branch_jumpsWhen _ t s⟩

/-- Settles O40: the words are encodings, and both jumps are branches on the signed order of R0 and R1. -/
theorem jlAndJgeCompareSigned : Obligations.JlAndJgeCompareSigned := by
  unfold Obligations.JlAndJgeCompareSigned
  intro t s
  rw [exec_jl, exec_jge]
  exact ⟨decode_wordI (op := .jl) (by decide) rfl rfl, decode_wordI (op := .jge) (by decide) rfl rfl,
    branch_jumpsWhen _ t s, branch_jumpsWhen _ t s⟩

/-- Settles O41: the words are encodings, and both jumps are branches on the signed order of R0 and R1, JLE taken and
JG not when the two are equal. -/
theorem jleAndJgCompareSigned : Obligations.JleAndJgCompareSigned := by
  unfold Obligations.JleAndJgCompareSigned
  intro t s
  rw [exec_jle, exec_jg]
  exact ⟨decode_wordI (op := .jle) (by decide) rfl rfl, decode_wordI (op := .jg) (by decide) rfl rfl,
    branch_jumpsWhen _ t s, branch_jumpsWhen _ t s⟩
end

section
/-! PROOFS. The four instructions of 44_stack_call.md: the word form of format `R` as an encoding, a change of the stack
seen through the words of the statements, and Execute of each instruction on a stack that admits it (R160 to R163) and
on one that makes it fault. -/

namespace Sys2Proof

open Claims

/-! ### The word form of format `R` -/

/-- The register digit of a word is the payload of format `R` (30_encoding.md R73). -/
theorem setWidth_payloadR (ra : RegIdx) : (payloadR ra).setWidth 64 = BitVec.ofNat 64 ra.val := by
  revert ra; decide

/-- The row's `match` bits (30_encoding.md R84) with a register digit are an encoding. -/
theorem wordR_eq_encode {head : InstrWord} {op : Opcode} {ra : RegIdx} {i : Instr} (hhead : head = op.spec.matchBits)
    (hop : i.opcode = op) (hpayload : i.payload = payloadR ra) : wordR head ra = encode i := by
  rw [wordR, hhead, ← setWidth_payloadR, Opcode.spec, packWord_zero_or, ← hop, ← hpayload, encode]

theorem decode_wordR {head : InstrWord} {op : Opcode} {ra : RegIdx} {i : Instr} (hhead : head = op.spec.matchBits)
    (hop : i.opcode = op) (hpayload : i.payload = payloadR ra) : decode (wordR head ra) = .ok i := by
  rw [wordR_eq_encode hhead hop hpayload, decode_encode]

namespace Machine

/-! ### A state with another stack -/

/-- `s` with the stack `st`: what a push or a pop makes of `s` before the registers are written. -/
def State.withStack (s : State) (st : List Word) : State := { s with stack := st }

/-- Everything but the registers and the stack is as before: the frame of the four instructions. -/
def SameBeyondRegistersAndStack (s t : State) : Prop := t.trapLog = s.trapLog ∧ SameRunRecord s t ∧ SameStores s t

section withStack
variable {s t : State} {v : Word} {st : List Word}

theorem State.pop_of_cons (h : s.stack = v :: st) : s.pop = some (v, s.withStack st) :=
  State.pop_eq_some_iff.2 ⟨st, h, rfl⟩

theorem onlyAdvances_withStack : OnlyAdvances (s.withStack st) t ↔ OnlyAdvances s t := Iff.rfl

theorem onlyPcBecomes_withStack : OnlyPcBecomes (s.withStack st) t v ↔ OnlyPcBecomes s t v := Iff.rfl

theorem writesThenAdvances_withStack {ra : RegIdx} :
    WritesThenAdvances (s.withStack st) t ra v ↔ WritesThenAdvances s t ra v := Iff.rfl

/-- To keep all but the registers from there on is to have that stack and to keep all but the two. -/
theorem sameBeyondRegisters_withStack :
    SameBeyondRegisters (s.withStack st) t ↔ t.stack = st ∧ SameBeyondRegistersAndStack s t := Iff.rfl

end withStack

/-! ### Execute, on a stack that makes the instruction fault -/

section faults
variable {s : State} (ra : RegIdx) (x : Word)

theorem exec_push_of_full (h : s.stackCapacity = some s.stack.length) :
    exec (.push ra) s = .next (s.raise .stackOverflow) := if_pos ((State.stackFull_iff s).2 h)

theorem exec_call_of_full (h : s.stackCapacity = some s.stack.length) :
    exec (.call x) s = .next (s.raise .stackOverflow) := if_pos ((State.stackFull_iff s).2 h)

theorem exec_pop_of_nil (h : s.stack = []) : exec (.pop ra) s = .next (s.raise .stackUnderflow) := by
  rw [exec, execPop, (State.pop_eq_none_iff s).2 h, takeFault_eq]

theorem exec_ret_of_nil (h : s.stack = []) : exec .ret s = .next (s.raise .stackUnderflow) := by
  rw [exec, execRet, (State.pop_eq_none_iff s).2 h, takeFault_eq]

end faults

/-! ### Execute, on a stack that admits the instruction -/

section completes
variable {s : State} {v : Word} {rest : List Word} (ra : RegIdx) (x : Word)

theorem exec_push_of_not_full (h : s.stackCapacity ≠ some s.stack.length) :
    exec (.push ra) s = .next (s.withStack (s.reg ra :: s.stack)).advance := if_neg (mt (State.stackFull_iff s).1 h)

theorem exec_call_of_not_full (h : s.stackCapacity ≠ some s.stack.length) :
    exec (.call x) s = .next ((s.withStack (wrap32 (s.pc.toInt + 1) :: s.stack)).setPc x) :=
  if_neg (mt (State.stackFull_iff s).1 h)

theorem exec_pop_of_cons (h : s.stack = v :: rest) :
    exec (.pop ra) s = .next ((s.withStack rest).setReg ra v).advance :=
  calc exec (.pop ra) s = writeBack ra v (s.withStack rest) := by simp only [exec, execPop, State.pop_of_cons h]
    _ = .next ((s.withStack rest).setReg ra v).advance := writeBack_eq ..

theorem exec_ret_of_cons (h : s.stack = v :: rest) : exec .ret s = .next ((s.withStack rest).setPc v) :=
  calc exec .ret s = redirect v (s.withStack rest) := by simp only [exec, execRet, State.pop_of_cons h]
    _ = .next ((s.withStack rest).setPc v) := redirect_eq ..

/-- PUSH completes with the register on top (44_stack_call.md R160). -/
theorem exec_push_completes (h : s.stackCapacity ≠ some s.stack.length) :
    ∃ t, exec (.push ra) s = .next t ∧ t.stack = s.reg ra :: s.stack ∧ OnlyAdvances s t ∧
      SameBeyondRegistersAndStack s t := by
  obtain ⟨hstack, hsame⟩ :=
    sameBeyondRegisters_withStack.1 (sameBeyondRegisters_advance (s.withStack (s.reg ra :: s.stack)))
  exact ⟨_, exec_push_of_not_full ra h, hstack, onlyAdvances_withStack.1 (onlyAdvances_advance _), hsame⟩

/-- POP completes with the top in the register (44_stack_call.md R161). -/
theorem exec_pop_completes (h : s.stack = v :: rest) :
    ∃ t, exec (.pop ra) s = .next t ∧ t.stack = rest ∧ WritesThenAdvances s t ra v ∧
      SameBeyondRegistersAndStack s t := by
  obtain ⟨hstack, hsame⟩ :=
    sameBeyondRegisters_withStack.1 (sameBeyondRegisters_setReg_advance (s.withStack rest) ra v)
  exact ⟨_, exec_pop_of_cons ra h, hstack,
    writesThenAdvances_withStack.1 (writesThenAdvances_setReg_advance _ ra v), hsame⟩

/-- CALL completes with the return address on top and the pc at its target (44_stack_call.md R162). -/
theorem exec_call_completes (h : s.stackCapacity ≠ some s.stack.length) :
    ∃ t, exec (.call x) s = .next t ∧ t.stack = wrap32 (s.pc.toInt + 1) :: s.stack ∧ OnlyPcBecomes s t x ∧
      SameBeyondRegistersAndStack s t := by
  obtain ⟨hstack, hsame⟩ :=
    sameBeyondRegisters_withStack.1 (sameBeyondRegisters_setPc (s.withStack (wrap32 (s.pc.toInt + 1) :: s.stack)) x)
  exact ⟨_, exec_call_of_not_full x h, hstack, onlyPcBecomes_withStack.1 (onlyPcBecomes_setPc _ x), hsame⟩

/-- RET completes with the pc at the popped index (44_stack_call.md R163). -/
theorem exec_ret_completes (h : s.stack = v :: rest) :
    ∃ t, exec .ret s = .next t ∧ t.stack = rest ∧ OnlyPcBecomes s t v ∧ SameBeyondRegistersAndStack s t := by
  obtain ⟨hstack, hsame⟩ := sameBeyondRegisters_withStack.1 (sameBeyondRegisters_setPc (s.withStack rest) v)
  exact ⟨_, exec_ret_of_cons h, hstack, onlyPcBecomes_withStack.1 (onlyPcBecomes_setPc _ v), hsame⟩

/-- The testable property of 44_stack_call.md R161: PUSH then POP moves a register's value and restores the stack. -/
theorem exec_push_then_pop (r : RegIdx) (h : s.stackCapacity ≠ some s.stack.length) :
    ∃ t u, exec (.push r) s = .next t ∧ exec (.pop ra) t = .next u ∧ u.stack = s.stack ∧
      (ra ≠ 15 → u.reg ra = s.reg r) ∧ (ra = 15 → IsWrapOf (u.reg 15) ((s.reg r).toInt + 1)) ∧
      ∀ j, j ≠ ra → j ≠ 15 → u.reg j = s.reg j := by
  obtain ⟨t, hpush, htop, ⟨_, hpushed⟩, _⟩ := exec_push_completes r h
  obtain ⟨u, hpop, hrest, ⟨hpopped, hdestination, hr15⟩, _⟩ := exec_pop_completes ra htop
  have hothers (j : RegIdx) (hra : j ≠ ra) (h15 : j ≠ 15) : u.reg j = s.reg j :=
    (hpopped j hra h15).trans (hpushed j h15)
  exact ⟨t, u, hpush, hpop, hrest, fun hra => (hdestination hra).1, hr15, hothers⟩

end completes

end Machine

end Sys2Proof

open Sys2Proof Sys2Proof.Machine

/-- Settles O43: the word is PUSH's encoding; Execute is a push and an Advance, or on a full finite stack a fault
entry. -/
theorem pushAppendsOrOverflows : Obligations.PushAppendsOrOverflows := by
  unfold Obligations.PushAppendsOrOverflows
  intro ra s
  refine ⟨decode_wordR (op := .push) (by decide) rfl rfl, fun hroom => ?pushes, fun hfull => ?overflows⟩
  case pushes => exact exec_push_completes ra hroom
  case overflows => exact ⟨_, exec_push_of_full ra hfull, isFaultEntry_raise .stackOverflow s⟩

/-- Settles O44: the word is POP's encoding; Execute is the write-back of the top to the state without it, or on an
empty stack a fault entry; after a PUSH the top is the pushed value. -/
theorem popTakesTheTopOrUnderflows : Obligations.PopTakesTheTopOrUnderflows := by
  unfold Obligations.PopTakesTheTopOrUnderflows
  intro ra s
  refine ⟨decode_wordR (op := .pop) (by decide) rfl rfl, fun v rest hstack => ?pops, fun hempty => ?underflows,
    fun r hroom => ?pair⟩
  case pops => exact exec_pop_completes ra hstack
  case underflows => exact ⟨_, exec_pop_of_nil ra hempty, isFaultEntry_raise .stackUnderflow s⟩
  case pair => exact exec_push_then_pop ra r hroom

/-- Settles O45: the word is CALL's encoding; Execute pushes `wrap32(pc0 + 1)` and redirects, so that a RET finds it on
top, or on a full finite stack is a fault entry. -/
theorem callPushesTheReturnAddress : Obligations.CallPushesTheReturnAddress := by
  unfold Obligations.CallPushesTheReturnAddress
  intro x s
  refine ⟨decode_wordI (op := .call) (by decide) rfl rfl, fun hroom => ?calls, fun hfull => ?overflows⟩
  case calls =>
    obtain ⟨t, hcall, hstack, hpc, hlog, hrecord, hstores⟩ := exec_call_completes x hroom
    refine ⟨_, t, hcall, dvd_wrap32 _, hstack, hpc, hlog, hrecord, hstores, fun b hb => ?returns⟩
    obtain ⟨c, hret, hrest, hback, _⟩ := exec_ret_completes (hb.trans hstack)
    exact ⟨c, hret, hrest, hback⟩
  case overflows => exact ⟨_, exec_call_of_full x hfull, isFaultEntry_raise .stackOverflow s⟩

/-- Settles O46: the word is RET's encoding; Execute is a redirect to the top from the state without it, or on an empty
stack a fault entry. -/
theorem retPopsIntoThePc : Obligations.RetPopsIntoThePc := by
  unfold Obligations.RetPopsIntoThePc
  intro s
  refine ⟨by decide, fun v rest hstack => ?returns, fun hempty => ?underflows⟩
  case returns => exact exec_ret_completes hstack
  case underflows => exact ⟨_, exec_ret_of_nil hempty, isFaultEntry_raise .stackUnderflow s⟩
end

section
/-! PROOFS. The three instructions of 45_system_trap.md: the halt of HLT and that no step follows it (R170), the Advance
of NOP (R171), and TRAP on a number in range whose handler completes and on one out of range (R172). -/

namespace Sys2Proof.Machine

open Claims

/-! ### The halt -/

/-- A halted machine is terminal, as every state outside `Running` is (40_execution_cycle.md R109). -/
theorem step_ne_next_of_not_running {s : State} (h : s.runState ≠ .running) (u : State) : step s ≠ .next u :=
  fun hstep => h (step_next_cases hstep).1

@[simp] theorem State.retire_halt_runState (s : State) : (s.retire .halt).runState = .halted := rfl

theorem sameStores_retire_halt (s : State) : SameStores s (s.retire .halt) :=
  have configuration : SameConfiguration s (s.retire .halt) := ⟨rfl, rfl, rfl, rfl⟩
  have memory : SameMemory s (s.retire .halt) := fun _ => rfl
  ⟨configuration, memory⟩

theorem step_retire_halt_ne_next (s u : State) : step (s.retire .halt) ≠ .next u :=
  step_ne_next_of_not_running (by rw [State.retire_halt_runState]; decide) u

/-! ### A state with a longer trap log -/

section logTrap
variable {s t : State} {k : TrapNumber}

theorem onlyAdvances_logTrap : OnlyAdvances (s.logTrap k) t ↔ OnlyAdvances s t := Iff.rfl

/-- To keep all but the registers from there on is to have the number once at the log's end and to keep all but the
registers and the log. -/
theorem sameBeyondRegisters_logTrap :
    SameBeyondRegisters (s.logTrap k) t ↔
      t.stack = s.stack ∧ t.trapLog = s.trapLog ++ [k] ∧ SameRunRecord s t ∧ SameStores s t := Iff.rfl

end logTrap

/-! ### Execute, for the three instructions -/

theorem exec_hlt (s : State) : exec .hlt s = .next (s.retire .halt) := rfl

theorem exec_nop (s : State) : exec .nop s = .next s.advance := sequential_eq s

section trap
variable {n : Word} {s : State} {k : TrapNumber}

theorem exec_trap_of_outOfRange (h : n.toInt < 0 ∨ 16 ≤ n.toInt) :
    exec (.trap n) s = .next (s.raise .trapError) := by
  rw [exec, execTrap, trapIndex_eq_none_iff.2 h, takeFault_eq]

theorem exec_trap_of_diagnostic (hn : n.toInt = (k.val : Int)) (hk : s.trapTable.get k = .diagnostic) :
    exec (.trap n) s = .next (s.logTrap k).advance :=
  have hcompletes : s.handlerCompletes k = true := (s.handlerCompletes_iff k).2 hk
  calc exec (.trap n) s = sequential (s.logTrap k) := by
        simp only [exec, execTrap, trapIndex_eq_some_iff.2 hn, if_pos hcompletes]
    _ = .next (s.logTrap k).advance := sequential_eq ..

/-- TRAP completes with its number logged after its handler did (45_system_trap.md R172). -/
theorem exec_trap_completes (hn : n.toInt = (k.val : Int)) (hk : s.trapTable.get k = .diagnostic) :
    ∃ t, exec (.trap n) s = .next t ∧ t.trapLog = s.trapLog ++ [k] ∧ OnlyAdvances s t ∧ t.stack = s.stack ∧
      SameRunRecord s t ∧ SameStores s t := by
  obtain ⟨hstack, hlog, hrecord, hstores⟩ :=
    sameBeyondRegisters_logTrap.1 (sameBeyondRegisters_advance (s.logTrap k))
  exact ⟨_, exec_trap_of_diagnostic hn hk, hlog, onlyAdvances_logTrap.1 (onlyAdvances_advance _), hstack, hrecord,
    hstores⟩

end trap

end Sys2Proof.Machine

open Sys2Proof Sys2Proof.Machine

/-- Settles O48: Execute writes the run state alone, and no step is taken from `Halted`. -/
theorem hltHaltsInPlace : Obligations.HltHaltsInPlace := by
  unfold Obligations.HltHaltsInPlace
  intro s
  exact ⟨by decide, _, exec_hlt s, State.retire_halt_runState s, fun _ => rfl, rfl, rfl, rfl, rfl,
    sameStores_retire_halt s, step_retire_halt_ne_next s⟩

/-- Settles O49: Execute is an Advance and nothing before it. -/
theorem nopAdvancesAlone : Obligations.NopAdvancesAlone := by
  unfold Obligations.NopAdvancesAlone
  intro s
  exact ⟨by decide, _, exec_nop s, onlyAdvances_advance s, sameBeyondRegisters_advance s⟩

/-- Settles O50: the word is TRAP's encoding; Execute logs the number and advances, or outside the Trap Table's range is
a fault entry. -/
theorem trapLogsItsNumberOrFaults : Obligations.TrapLogsItsNumberOrFaults := by
  unfold Obligations.TrapLogsItsNumberOrFaults
  intro n s
  refine ⟨decode_wordI (op := .trap) (by decide) rfl rfl, fun k hn hk => ?logs, fun hout => ?faults⟩
  case logs => exact exec_trap_completes hn hk
  case faults => exact ⟨_, exec_trap_of_outOfRange hout, isFaultEntry_raise .trapError s⟩
end

section
/-! PROOFS. The fault entry of 60_exceptions.md R190: the ways an instruction ends that keep the run state, and the one
that does not, with the cause of its kind. -/

namespace Sys2Proof.Machine

open Claims

/-! ### The run state, by the way an instruction ends -/

section runState
variable {s t : State} {ra : RegIdx} {v x : Word} {taken : Bool}

theorem runState_of_sequential (h : sequential s = .next t) : t.runState = s.runState := by
  rw [sequential_eq, Host.Outcome.next.injEq] at h
  rw [← h, State.advance_runState]

theorem runState_of_redirect (h : redirect x s = .next t) : t.runState = s.runState := by
  rw [redirect_eq, Host.Outcome.next.injEq] at h
  rw [← h, State.setPc_runState]

theorem runState_of_branch (h : branch taken x s = .next t) : t.runState = s.runState := by
  cases taken with
  | true => exact runState_of_redirect h
  | false => exact runState_of_sequential h

theorem runState_of_writeBack (h : writeBack ra v s = .next t) : t.runState = s.runState :=
  (runState_of_sequential h).trans (State.setReg_runState s ra v)

end runState

/-! ### The cause of a fault entry -/

/-- Which instructions fault and why (60_exceptions.md section 1): an instruction executed in `Running` ends in
`Faulted` only as the fault entry of a kind whose cause holds. -/
theorem faultCause_of_exec_faulted {i : Instr} {s t : State} (hr : s.runState = .running) (hi : Executes s i)
    (h : exec i s = .next t) (hf : t.runState = .faulted) : ∃ K, FaultCause s K ∧ t = s.raise K := by
  have noFault (e : t.runState = s.runState) : False := nomatch hf.symm.trans (e.trans hr)
  have entry {K : FaultKind} (e : exec i s = .next (s.raise K)) (hK : FaultCause s K) :
      ∃ K, FaultCause s K ∧ t = s.raise K := ⟨K, hK, Host.Outcome.next.inj (h.symm.trans e)⟩
  cases i with
  | add | sub | mul | mov | cmp => exact (noFault (runState_of_writeBack h)).elim
  | jz | jnz | je | jne | jl | jle | jg | jge => exact (noFault (runState_of_branch h)).elim
  | jmp => exact (noFault (runState_of_redirect h)).elim
  | nop => exact (noFault (runState_of_sequential h)).elim
  | hlt =>
    cases h
    cases hf
  | div ra rb =>
    by_cases hzero : (s.reg rb).toInt = 0
    · exact entry (exec_div_of_eq_zero ra hzero) ⟨ra, rb, hi, hzero⟩
    · rw [exec_div_of_ne_zero ra hzero] at h
      exact (noFault (runState_of_writeBack h)).elim
  | push ra =>
    by_cases hfull : s.stackCapacity = some s.stack.length
    · exact entry (exec_push_of_full ra hfull) ⟨.inl ⟨ra, hi⟩, hfull⟩
    · cases (exec_push_of_not_full ra hfull).symm.trans h
      exact (noFault rfl).elim
  | call x =>
    by_cases hfull : s.stackCapacity = some s.stack.length
    · exact entry (exec_call_of_full x hfull) ⟨.inr ⟨x, hi⟩, hfull⟩
    · cases (exec_call_of_not_full x hfull).symm.trans h
      exact (noFault rfl).elim
  | pop ra =>
    cases hstack : s.stack with
    | nil => exact entry (exec_pop_of_nil ra hstack) ⟨.inl ⟨ra, hi⟩, hstack⟩
    | cons v rest =>
      cases (exec_pop_of_cons ra hstack).symm.trans h
      exact (noFault rfl).elim
  | ret =>
    cases hstack : s.stack with
    | nil => exact entry (exec_ret_of_nil hstack) ⟨.inr hi, hstack⟩
    | cons v rest =>
      cases (exec_ret_of_cons hstack).symm.trans h
      exact (noFault rfl).elim
  | trap n =>
    cases hindex : trapIndex n with
    | none =>
      have hout := trapIndex_eq_none_iff.1 hindex
      exact entry (exec_trap_of_outOfRange hout) ⟨n, hi, hout⟩
    | some k =>
      simp only [exec, execTrap, hindex] at h
      split at h
      · exact (noFault ((runState_of_sequential h).trans (State.logTrap_runState s k))).elim
      · cases h

/-- A step reaches `Faulted` only as the fault entry of a kind whose cause held, in Fetch, Decode or Execute. -/
theorem faultCause_of_step_faulted {s t : State} (h : step s = .next t) (hf : t.runState = .faulted) :
    ∃ K, FaultCause s K ∧ t = s.raise K := by
  obtain ⟨hr, ⟨hnone, ht⟩ | ⟨w, e, hw, hd, ht⟩ | ⟨w, i, hw, hd, hexec⟩⟩ := step_next_cases h
  · exact ⟨.fetchOutOfBounds, State.fetch_eq_none_iff.1 hnone, ht⟩
  · exact ⟨.decodeError, ⟨w, e, hw, hd⟩, ht⟩
  · exact faultCause_of_exec_faulted hr ⟨w, hw, hd⟩ hexec hf

end Sys2Proof.Machine

open Sys2Proof Sys2Proof.Machine

/-- Settles O15: the next state is `raise` of a kind whose cause held, and `raise` writes those three fields alone. -/
theorem faultEntryChangesTheRecordAlone : Obligations.FaultEntryChangesTheRecordAlone := by
  unfold Obligations.FaultEntryChangesTheRecordAlone
  intro s t h hf
  obtain ⟨K, hcause, rfl⟩ := faultCause_of_step_faulted h hf
  exact ⟨hcause, rfl⟩
end

section
/-! PROOFS. The round trip of 30_encoding.md R83 in both directions, the ignored bits (R75), and the row a word belongs
to (R84). One idea carries them: a word masked by a packed word is the packed word of its masked fields. -/

namespace Sys2Proof

/-! ### A masked word, field by field -/

/-- The payload bits that a format uses (30_encoding.md R73). -/
def Format.payloadMask : Format → Word
  | .Z => 0
  | .R => 0x0000000F
  | .RR => 0x000000FF
  | .I => 0xFFFFFFFF

theorem Format.usedBits_eq_packWord (f : Format) : f.usedBits = packWord 0xFFFF 0xFF f.payloadMask := by
  cases f <;> rfl

theorem and_packWord (w : InstrWord) (c : BitVec 16) (n : BitVec 8) (p : Word) :
    w &&& packWord c n p = packWord (opcodeField w &&& c) (nopsField w &&& n) (payloadField w &&& p) := by
  apply BitVec.eq_of_getLsbD_eq
  intro i hi
  rw [BitVec.getLsbD_and, getLsbD_packWord, getLsbD_packWord]
  by_cases hpayload : i < 32
  · simp [hpayload, payloadField]
  by_cases hreserved : i < 40
  · simp [hpayload, hreserved]
  by_cases hnops : i < 48
  · have hbit : i - 40 < 8 := by omega
    have hpos : 40 + (i - 40) = i := by omega
    simp [hpayload, hreserved, hnops, nopsField, hbit, hpos]
  · have hbit : i - 48 < 16 := by omega
    have hpos : 48 + (i - 48) = i := by omega
    simp [hpayload, hreserved, hnops, opcodeField, hbit, hpos]

/-- The opcode and the operand count are always read (30_encoding.md R72). -/
theorem and_packWord_ones (w : InstrWord) (p : Word) :
    w &&& packWord 0xFFFF 0xFF p = packWord (opcodeField w) (nopsField w) (payloadField w &&& p) := by
  have hop : opcodeField w &&& 0xFFFF = opcodeField w := BitVec.and_allOnes
  have hnops : nopsField w &&& 0xFF = nopsField w := BitVec.and_allOnes
  rw [and_packWord, hop, hnops]

theorem and_usedBits (w : InstrWord) (f : Format) :
    w &&& f.usedBits = packWord (opcodeField w) (nopsField w) (payloadField w &&& f.payloadMask) := by
  rw [Format.usedBits_eq_packWord, and_packWord_ones]

theorem packWord_inj {c c' : BitVec 16} {n n' : BitVec 8} {p p' : Word} :
    packWord c n p = packWord c' n' p' ↔ c = c' ∧ n = n' ∧ p = p' := by
  constructor
  · intro h
    refine ⟨?opcode, ?nops, ?payload⟩
    case opcode => simpa using congrArg opcodeField h
    case nops => simpa using congrArg nopsField h
    case payload => simpa using congrArg payloadField h
  · rintro ⟨rfl, rfl, rfl⟩
    rfl

/-! ### The operands of a payload -/

theorem val_lowReg (p : Word) : (lowReg p).val = p.toNat % 16 := by simp [lowReg]

theorem val_highReg (p : Word) : (highReg p).val = p.toNat / 16 % 16 := by simp [highReg, Nat.shiftRight_eq_div_pow]

theorem toNat_payloadRR (ra rb : RegIdx) : (payloadRR ra rb).toNat = 16 * ra.val + rb.val := by
  revert ra rb; decide

theorem toNat_payloadR (ra : RegIdx) : (payloadR ra).toNat = ra.val := by
  revert ra; decide

/-- The low bits of a payload are its remainder. -/
theorem toNat_and_twoPow_sub_one (p : Word) {k : Nat} (hk : k ≤ 32) :
    (p &&& BitVec.ofNat 32 (2 ^ k - 1)).toNat = p.toNat % 2 ^ k := by
  have hlt : 2 ^ k - 1 < 2 ^ 32 := by
    have := Nat.pow_le_pow_right (n := 2) (by decide) hk
    omega
  rw [BitVec.toNat_and, BitVec.toNat_ofNat, Nat.mod_eq_of_lt hlt, Nat.and_two_pow_sub_one_eq_mod]

theorem payloadRR_highReg_lowReg (p : Word) : payloadRR (highReg p) (lowReg p) = p &&& 0x000000FF := by
  have hmask : (p &&& 0x000000FF).toNat = p.toNat % 256 := toNat_and_twoPow_sub_one p (k := 8) (by decide)
  apply BitVec.eq_of_toNat_eq
  rw [toNat_payloadRR, val_highReg, val_lowReg, hmask]
  omega

theorem payloadR_lowReg (p : Word) : payloadR (lowReg p) = p &&& 0x0000000F := by
  have hmask : (p &&& 0x0000000F).toNat = p.toNat % 16 := toNat_and_twoPow_sub_one p (k := 4) (by decide)
  apply BitVec.eq_of_toNat_eq
  rw [toNat_payloadR, val_lowReg, hmask]

/-- Assembling reads the payload bits of the format, and encoding writes them back. -/
theorem Opcode.payload_assemble (op : Opcode) (p : Word) :
    (op.assemble p).payload = p &&& op.format.payloadMask := by
  have hI : p = p &&& 0xFFFFFFFF := BitVec.and_allOnes.symm
  have hZ : (0 : Word) = p &&& 0 := BitVec.and_zero.symm
  cases op with
  | add | sub | mul | div | mov | cmp => exact payloadRR_highReg_lowReg p
  | push | pop => exact payloadR_lowReg p
  | jmp | jz | jnz | je | jne | jl | jle | jg | jge | call | trap => exact hI
  | ret | hlt | nop => exact hZ

/-- The payload bits outside the format take no part in the operands (30_encoding.md R75). -/
theorem Opcode.assemble_and_payloadMask (op : Opcode) (p : Word) :
    op.assemble (p &&& op.format.payloadMask) = op.assemble p := by
  have h := Instr.assemble_payload (op.assemble p)
  rwa [Opcode.opcode_assemble, Opcode.payload_assemble] at h

/-! ### Encoding after decoding -/

/-- The count a decoded word carries, as a field (30_encoding.md R80). -/
theorem nopsField_eq_of_toNat {w : InstrWord} {op : Opcode} (h : (nopsField w).toNat = op.arity) :
    nopsField w = BitVec.ofNat 8 op.arity := by
  rw [← h, BitVec.ofNat_toNat, BitVec.setWidth_eq]

theorem encode_of_decode {w : InstrWord} {i : Instr} (h : decode w = .ok i) :
    encode i = w &&& i.opcode.format.usedBits := by
  obtain ⟨hop, hnops, hi⟩ := decode_eq_ok_iff.1 h
  have hpayload : i.payload = payloadField w &&& i.opcode.format.payloadMask :=
    (congrArg Instr.payload hi).trans (Opcode.payload_assemble ..)
  rw [and_usedBits, encode, hop, nopsField_eq_of_toNat hnops, hpayload]

/-- The encoder writes 0 to every bit its format does not use: an encoding is its own masked word. -/
theorem encode_and_not_usedBits (i : Instr) : encode i &&& ~~~i.opcode.format.usedBits = 0 := by
  rw [encode_of_decode (decode_encode i), BitVec.and_assoc, BitVec.and_not_self]
  exact BitVec.and_zero

theorem decode_congr_usedBits {w w' : InstrWord} {op : Opcode} (hop : Opcode.ofCode (opcodeField w) = some op)
    (h : w &&& op.format.usedBits = w' &&& op.format.usedBits) : decode w = decode w' := by
  rw [and_usedBits, and_usedBits, packWord_inj] at h
  obtain ⟨hcode, hnops, hpayload⟩ := h
  rw [decode_of_ofCode_eq_some hop, decode_of_ofCode_eq_some (hcode ▸ hop), hnops, ← op.assemble_and_payloadMask,
    hpayload, op.assemble_and_payloadMask]

/-! ### The row of a word -/

/-- A word decodes to an instruction of an opcode exactly when it carries the code and the count of the opcode's row:
no payload is rejected. -/
theorem exists_decode_iff {w : InstrWord} {op : Opcode} :
    (∃ i, decode w = .ok i ∧ i.opcode = op) ↔ opcodeField w = op.code ∧ (nopsField w).toNat = op.arity := by
  constructor
  · rintro ⟨i, hi, rfl⟩
    obtain ⟨hop, hnops, -⟩ := decode_eq_ok_iff.1 hi
    exact ⟨hop, hnops⟩
  · rintro ⟨hop, hnops⟩
    refine ⟨op.assemble (payloadField w), decode_eq_ok_iff.2 ?_, op.opcode_assemble _⟩
    rw [op.opcode_assemble]
    exact ⟨hop, hnops, rfl⟩

theorem and_maskBits_eq_matchBits_iff {w : InstrWord} {op : Opcode} :
    w &&& op.spec.maskBits = op.spec.matchBits ↔ opcodeField w = op.code ∧ (nopsField w).toNat = op.arity := by
  have hmask : op.spec.maskBits = packWord 0xFFFF 0xFF 0 := rfl
  have hmatch : op.spec.matchBits = packWord op.code (BitVec.ofNat 8 op.arity) 0 := rfl
  have hcount : op.arity < 3 := op.format.arity_lt_three
  have hnops : nopsField w = BitVec.ofNat 8 op.arity ↔ (nopsField w).toNat = op.arity := by
    refine ⟨fun h => ?_, nopsField_eq_of_toNat⟩
    rw [h, BitVec.toNat_ofNat]
    omega
  have hpayload : payloadField w &&& 0 = 0 := BitVec.and_zero
  rw [hmask, and_packWord_ones, hmatch, packWord_inj, hnops, hpayload, and_iff_left rfl]

end Sys2Proof

open Sys2Proof

/-- Settles O1: each field of the encoding is read back as it was packed. -/
theorem decodeOfEncodeIsTheInstruction : Obligations.DecodeOfEncodeIsTheInstruction := by
  unfold Obligations.DecodeOfEncodeIsTheInstruction
  exact fun i _ => decode_encode i

/-- Settles O2: masked by the format's used bits, the word is packed from the fields that the instruction keeps. -/
theorem encodeOfDecodeClearsIgnoredBits : Obligations.EncodeOfDecodeClearsIgnoredBits := by
  unfold Obligations.EncodeOfDecodeClearsIgnoredBits
  exact fun w i h => encode_of_decode h

/-- Settles O4: both sides say that the word carries the row's code and count. -/
theorem wordIsAnInstanceOfItsRow : Obligations.WordIsAnInstanceOfItsRow := by
  unfold Obligations.WordIsAnInstanceOfItsRow
  exact fun w op => exists_decode_iff.trans and_maskBits_eq_matchBits_iff.symm

/-- Settles O5: the decoder reads the masked fields alone, and an encoding is its own masked word. -/
theorem ignoredBitsTakeNoPart : Obligations.IgnoredBitsTakeNoPart := by
  unfold Obligations.IgnoredBitsTakeNoPart
  exact ⟨fun w w' op => decode_congr_usedBits, encode_and_not_usedBits⟩

/-- Settles O8: the fifteen words are closed, and the decoder computes. -/
theorem workedEncodingsDecode : Obligations.WorkedEncodingsDecode := by
  unfold Obligations.WorkedEncodingsDecode
  decide
end

section
/-! PROOFS. The structure form of 30_encoding.md section 4, and the serialised byte order of 20_memory.md R55. The
operands of a payload depend on the format alone, so each claim about the structure form is a case split over the four
formats. -/

namespace Sys2Proof

/-! ### Operands by format -/

/-- The operand list that a payload stands for in a format (30_encoding.md R71, R73): what `Format.payloadOf` undoes. -/
def Format.operandsOf (f : Format) (p : Word) : List Operand :=
  match f with
  | .Z => []
  | .R => [.reg (lowReg p).val]
  | .RR => [.reg (highReg p).val, .reg (lowReg p).val]
  | .I => [.imm p.toInt]

theorem Opcode.operands_assemble (op : Opcode) (p : Word) : (op.assemble p).operands = op.format.operandsOf p := by
  cases op <;> rfl

theorem regOfNat_eq_ok_iff {a : Nat} {r : RegIdx} : regOfNat a = .ok r ↔ a = r.val := by
  unfold regOfNat
  split
  · next h => simp [Fin.ext_iff]
  · next h => have := r.isLt; simp; omega

theorem immOfInt_eq_ok_iff {v : Int} {t : Word} : immOfInt v = .ok t ↔ v = t.toInt := by
  unfold immOfInt
  have hlow := BitVec.le_toInt t
  have hhigh := BitVec.toInt_lt (x := t)
  split
  · next h =>
    rw [Except.ok.injEq, word_ext_toInt, BitVec.toInt_ofInt, Int.bmod_eq_of_le (by omega) (by omega)]
  · next h => simp; omega

/-- Reading the operand list of an assembled instruction gives its payload back. -/
theorem Format.payloadOf_operands (i : Instr) : i.opcode.format.payloadOf i.operands = .ok i.payload := by
  have hreg (r : RegIdx) : regOfNat r.val = .ok r := regOfNat_eq_ok_iff.2 rfl
  have himm (t : Word) : immOfInt t.toInt = .ok t := immOfInt_eq_ok_iff.2 rfl
  cases i with
  | add | sub | mul | div | mov | cmp =>
    simp [Instr.opcode, Opcode.format, Instr.operands, Format.payloadOf, hreg, Instr.payload]
  | push | pop => simp [Instr.opcode, Opcode.format, Instr.operands, Format.payloadOf, hreg, Instr.payload, Except.map]
  | jmp | jz | jnz | je | jne | jl | jle | jg | jge | call | trap => exact himm _
  | ret | hlt | nop => rfl

/-- An accepted operand list is the one of the payload read from it. -/
theorem Format.operandsOf_of_payloadOf {f : Format} {ops : List Operand} {p : Word} (h : f.payloadOf ops = .ok p) :
    f.operandsOf p = ops := by
  unfold Format.payloadOf at h
  split at h
  case h_1 => rfl
  case h_2 a =>
    cases ha : regOfNat a with
    | error e => simp [ha, Except.map] at h
    | ok ra =>
      simp only [ha, Except.map, Except.ok.injEq] at h
      rw [Format.operandsOf, ← h, lowReg_payloadR, regOfNat_eq_ok_iff.1 ha]
  case h_4 a b =>
    split at h
    · next ra rb ha hb =>
      cases h
      rw [Format.operandsOf, highReg_payloadRR, lowReg_payloadRR, regOfNat_eq_ok_iff.1 ha, regOfNat_eq_ok_iff.1 hb]
    · cases h
    · cases h
  case h_6 v => rw [Format.operandsOf, immOfInt_eq_ok_iff.1 h]
  all_goals cases h

/-! ### The structure form of an instruction -/

theorem ofDecoded_toDecoded (i : Instr) : ofDecoded i.toDecoded = .ok i := by
  simp [ofDecoded, Instr.toDecoded, Format.payloadOf_operands, Except.map]

/-- All that the structure form can be read as. -/
theorem ofDecoded_eq_ok_iff {d : DecodedInstruction} {i : Instr} : ofDecoded d = .ok i ↔ i.toDecoded = d := by
  refine ⟨fun h => ?_, fun h => h ▸ ofDecoded_toDecoded i⟩
  cases hop : Opcode.ofCode d.opcode with
  | none => simp [ofDecoded, hop] at h
  | some op =>
    cases hp : op.format.payloadOf d.operands with
    | error e => simp [ofDecoded, hop, hp, Except.map] at h
    | ok p =>
      simp only [ofDecoded, hop, hp, Except.map, Except.ok.injEq] at h
      rw [← h, Instr.toDecoded, op.opcode_assemble, op.operands_assemble, Format.operandsOf_of_payloadOf hp,
        ← Opcode.ofCode_eq_some hop]

/-! ### WellFormed -/

/-- One operand passes the three checks of WellFormed that look at it (30_encoding.md R71, R83). -/
def Operand.AdmittedBy (f : Format) (o : Operand) : Prop :=
  o.kindOk f = true ∧ o.registerOk = true ∧ o.immediateOk = true

theorem Operand.admittedBy_iff {f : Format} {o : Operand} :
    o.AdmittedBy f ↔ (f ≠ .I ∧ ∃ r : RegIdx, o = .reg r.val) ∨ (f = .I ∧ ∃ t : Word, o = .imm t.toInt) := by
  cases o with
  | reg a =>
    have hrange : a < Config.numRegs ↔ ∃ r : RegIdx, a = r.val :=
      ⟨fun h => ⟨⟨a, h⟩, rfl⟩, fun ⟨r, hr⟩ => hr ▸ r.isLt⟩
    simp [Operand.AdmittedBy, Operand.kindOk, Operand.registerOk, Operand.immediateOk, hrange]
  | imm v =>
    have hrange : (-2147483648 ≤ v ∧ v ≤ 2147483647) ↔ ∃ t : Word, v = t.toInt := by
      simp only [← immOfInt_eq_ok_iff]
      unfold immOfInt
      split <;> simp_all
    simp [Operand.AdmittedBy, Operand.kindOk, Operand.registerOk, Operand.immediateOk, hrange]

theorem wellFormed_iff {d : DecodedInstruction} :
    d.wellFormed = true ↔ ∃ op, Opcode.ofCode d.opcode = some op ∧ d.operands.length = op.arity ∧
      ∀ o ∈ d.operands, o.AdmittedBy op.format := by
  cases hop : Opcode.ofCode d.opcode with
  | none => simp [DecodedInstruction.wellFormed, DecodedInstruction.opcodeKnown, hop]
  | some op =>
    simp [DecodedInstruction.wellFormed, DecodedInstruction.opcodeKnown, DecodedInstruction.operandCountOk,
      DecodedInstruction.operandKindsOk, hop, Operand.AdmittedBy, forall_and, and_assoc]

theorem Format.admittedBy_of_mem_operandsOf {f : Format} {p : Word} {o : Operand} (h : o ∈ f.operandsOf p) :
    o.AdmittedBy f := by
  cases f with
  | Z => cases h
  | R =>
    obtain rfl := List.mem_singleton.1 h
    exact Operand.admittedBy_iff.2 (.inl ⟨by decide, _, rfl⟩)
  | RR =>
    obtain rfl | rfl : o = .reg (highReg p).val ∨ o = .reg (lowReg p).val := by simpa [Format.operandsOf] using h
    · exact Operand.admittedBy_iff.2 (.inl ⟨by decide, _, rfl⟩)
    · exact Operand.admittedBy_iff.2 (.inl ⟨by decide, _, rfl⟩)
  | I =>
    obtain rfl := List.mem_singleton.1 h
    exact Operand.admittedBy_iff.2 (.inr ⟨rfl, _, rfl⟩)

theorem Format.length_operandsOf (f : Format) (p : Word) : (f.operandsOf p).length = f.arity := by cases f <;> rfl

/-- A list of the right length whose operands pass the checks has a payload. -/
theorem Format.exists_payloadOf {f : Format} {ops : List Operand} (hlen : ops.length = f.arity)
    (hops : ∀ o ∈ ops, o.AdmittedBy f) : ∃ p, f.payloadOf ops = .ok p := by
  have register (hf : f ≠ .I) {o : Operand} (ho : o ∈ ops) : ∃ r : RegIdx, o = .reg r.val := by
    simpa [hf] using Operand.admittedBy_iff.1 (hops o ho)
  have hreg (r : RegIdx) : regOfNat r.val = .ok r := regOfNat_eq_ok_iff.2 rfl
  cases f with
  | Z =>
    obtain rfl := List.length_eq_zero_iff.1 hlen
    exact ⟨0, rfl⟩
  | R =>
    obtain ⟨o, rfl⟩ := List.length_eq_one_iff.1 hlen
    obtain ⟨r, rfl⟩ := register (by decide) (List.mem_singleton_self o)
    exact ⟨payloadR r, by simp [Format.payloadOf, hreg, Except.map]⟩
  | RR =>
    obtain ⟨o, o', rfl⟩ := List.length_eq_two.1 hlen
    obtain ⟨r, rfl⟩ := register (by decide) (o := o) (by simp)
    obtain ⟨r', rfl⟩ := register (by decide) (o := o') (by simp)
    exact ⟨payloadRR r r', by simp [Format.payloadOf, hreg]⟩
  | I =>
    obtain ⟨o, rfl⟩ := List.length_eq_one_iff.1 hlen
    obtain ⟨t, rfl⟩ : ∃ t : Word, o = .imm t.toInt := by
      simpa using Operand.admittedBy_iff.1 (hops o (List.mem_singleton_self o))
    exact ⟨t, immOfInt_eq_ok_iff.2 rfl⟩

theorem Instr.operands_eq_operandsOf (i : Instr) : i.operands = i.opcode.format.operandsOf i.payload :=
  (congrArg Instr.operands i.assemble_payload).symm.trans (Opcode.operands_assemble ..)

/-- Every instruction is valid by its types (30_encoding.md R83). -/
theorem wellFormed_toDecoded (i : Instr) : i.toDecoded.wellFormed = true := by
  have hops : i.toDecoded.operands = i.opcode.format.operandsOf i.payload := i.operands_eq_operandsOf
  refine wellFormed_iff.2 ⟨i.opcode, Opcode.ofCode_code _, ?count, fun o ho => ?admitted⟩
  case count =>
    rw [hops]
    exact Format.length_operandsOf ..
  case admitted => exact Format.admittedBy_of_mem_operandsOf (hops ▸ ho)

theorem wellFormed_iff_exists_ofDecoded {d : DecodedInstruction} :
    d.wellFormed = true ↔ ∃ i, ofDecoded d = .ok i := by
  constructor
  · intro h
    obtain ⟨op, hop, hlen, hops⟩ := wellFormed_iff.1 h
    obtain ⟨p, hp⟩ := Format.exists_payloadOf hlen hops
    exact ⟨op.assemble p, by simp [ofDecoded, hop, hp, Except.map]⟩
  · rintro ⟨i, hi⟩
    exact ofDecoded_eq_ok_iff.1 hi ▸ wellFormed_toDecoded i

/-! ### The byte order -/

theorem wordToBytes_getElem? (w : InstrWord) {k : Nat} (hk : k < 8) :
    (wordToBytes w)[k]? = some (w.extractLsb' (8 * k) 8) := by
  simp [wordToBytes, hk]

theorem cellToBytes_getElem? (v : Word) {k : Nat} (hk : k < 4) :
    (cellToBytes v)[k]? = some (v.extractLsb' (8 * k) 8) := by
  simp [cellToBytes, hk]

/-- Byte `k` of an image joins to the bits above it, cut from bit `8(k + 1)` on. -/
theorem extractLsb'_append_byte {w : Nat} (x : BitVec w) (k n : Nat) :
    x.extractLsb' (8 * (k + 1)) n ++ x.extractLsb' (8 * k) 8 = x.extractLsb' (8 * k) (n + 8) := by
  apply BitVec.eq_of_getLsbD_eq
  intro i hi
  rw [BitVec.getLsbD_append, BitVec.getLsbD_extractLsb', BitVec.getLsbD_extractLsb', BitVec.getLsbD_extractLsb']
  by_cases h : i < 8
  · simp [h, hi]
  · have hpos : 8 * (k + 1) + (i - 8) = 8 * k + i := by omega
    have hbit : i - 8 < n := by omega
    simp [h, hi, hpos, hbit]

theorem bytesToWord_wordToBytes (w : InstrWord) : bytesToWord (wordToBytes w) = some w := by
  simp only [wordToBytes, bytesToWord, List.range_succ, List.range_zero, List.nil_append, List.cons_append,
    List.map_cons, List.map_nil]
  simp only [extractLsb'_append_byte]
  exact congrArg some BitVec.extractLsb'_eq_self

theorem bytesToCell_cellToBytes (v : Word) : bytesToCell (cellToBytes v) = some v := by
  simp only [cellToBytes, bytesToCell, List.range_succ, List.range_zero, List.nil_append, List.cons_append,
    List.map_cons, List.map_nil]
  simp only [extractLsb'_append_byte]
  exact congrArg some BitVec.extractLsb'_eq_self

end Sys2Proof

open Sys2Proof

/-- Settles O9: a structure form reads as an instruction exactly when it is that instruction's, and WellFormed admits
exactly the lists that have a payload. -/
theorem structureFormCorresponds : Obligations.StructureFormCorresponds := by
  unfold Obligations.StructureFormCorresponds
  exact ⟨ofDecoded_toDecoded, fun d i => ofDecoded_eq_ok_iff.1, fun d => wellFormed_iff_exists_ofDecoded⟩

/-- Settles O10: byte `k` is cut at bit `8k`, and neighbouring bytes join again. -/
theorem serialisationIsLittleEndian : Obligations.SerialisationIsLittleEndian := by
  unfold Obligations.SerialisationIsLittleEndian
  exact ⟨fun w => ⟨rfl, bytesToWord_wordToBytes w, fun k => wordToBytes_getElem? w⟩,
    fun v => ⟨rfl, bytesToCell_cellToBytes v, fun k => cellToBytes_getElem? v⟩⟩
end

section
/-! PROOFS. What a step in `Running` can do, said once: Execute of the decoded instruction, the causes of a fault, and
the end of each instruction as a change of registers, stack and trap log. The frames of 10_state.md (R22, R32, R36), of
20_memory.md (R52) and of the run state (R33) are read off from that. -/

namespace Sys2Proof.Machine

open Claims

/-! ### Execute of the decoded instruction -/

theorem step_of_executes {s : State} {i : Instr} (hr : s.runState = .running) (hi : Executes s i) :
    step s = exec i s := by
  obtain ⟨w, hf, hd⟩ := hi
  simp only [step_of_running hr, hf, hd]

/-- At most one instruction is executed. -/
theorem executes_unique {s : State} {i j : Instr} (hi : Executes s i) (hj : Executes s j) : i = j := by
  obtain ⟨w, hf, hd⟩ := hi
  obtain ⟨w', hf', hd'⟩ := hj
  obtain rfl := Option.some.inj (hf.symm.trans hf')
  exact Except.ok.inj (hd.symm.trans hd')

/-! ### The causes of a fault -/

/-- The converse of `faultCause_of_step_faulted`: a cause that holds is taken, so no two hold at once. -/
theorem step_of_faultCause {s : State} {K : FaultKind} (hr : s.runState = .running) (h : FaultCause s K) :
    step s = .next (s.raise K) := by
  have executed {i : Instr} (hi : Executes s i) (he : exec i s = .next (s.raise K)) : step s = .next (s.raise K) :=
    (step_of_executes hr hi).trans he
  cases K with
  | noFault => exact h.elim
  | fetchOutOfBounds => exact step_of_fetch_eq_none hr (State.fetch_eq_none_iff.2 h)
  | decodeError =>
    obtain ⟨w, e, hf, hd⟩ := h
    simp only [step_of_running hr, hf, hd, takeFault_eq]
  | divideByZero =>
    obtain ⟨ra, rb, hi, hzero⟩ := h
    exact executed hi (exec_div_of_eq_zero ra hzero)
  | stackUnderflow =>
    obtain ⟨⟨ra, hi⟩ | hi, hempty⟩ := h
    · exact executed hi (exec_pop_of_nil ra hempty)
    · exact executed hi (exec_ret_of_nil hempty)
  | trapError =>
    obtain ⟨n, hi, hout⟩ := h
    exact executed hi (exec_trap_of_outOfRange hout)
  | stackOverflow =>
    obtain ⟨⟨ra, hi⟩ | ⟨x, hi⟩, hfull⟩ := h
    · exact executed hi (exec_push_of_full ra hfull)
    · exact executed hi (exec_call_of_full x hfull)

theorem step_faulted_iff_faultCause {s : State} {K : FaultKind} (hr : s.runState = .running) :
    (∃ t, step s = .next t ∧ t.runState = .faulted ∧ t.faultKind = K) ↔ FaultCause s K := by
  constructor
  · rintro ⟨t, h, hf, rfl⟩
    obtain ⟨K, hK, rfl⟩ := faultCause_of_step_faulted h hf
    exact hK
  · exact fun h => ⟨_, step_of_faultCause hr h, rfl, rfl⟩

/-! ### The shapes of a next state -/

/-- A step is the fault entry of a cause that held, the halt of HLT, or a completion. -/
theorem step_next_shapes {s t : State} (h : step s = .next t) :
    (∃ K, FaultCause s K ∧ t = s.raise K) ∨ (Executes s .hlt ∧ t = s.retire .halt) ∨
      (¬Executes s .hlt ∧ Completes s t) := by
  by_cases hf : t.runState = .faulted
  · exact .inl (faultCause_of_step_faulted h hf)
  obtain ⟨hr, ⟨-, rfl⟩ | ⟨w, e, -, -, rfl⟩ | ⟨w, i, hw, hd, hexec⟩⟩ := step_next_cases h
  · exact absurd rfl hf
  · exact absurd rfl hf
  have hi : Executes s i := ⟨w, hw, hd⟩
  obtain ⟨K, -, rfl⟩ | ⟨rfl, rfl⟩ | ⟨hne, hcompletes⟩ := exec_next_cases hexec
  · exact absurd rfl hf
  · exact .inr (.inl ⟨hi, rfl⟩)
  · exact .inr (.inr ⟨fun hhlt => hne (executes_unique hi hhlt), hcompletes⟩)

theorem Completes.runState_eq {s t : State} (h : Completes s t) : t.runState = s.runState := by
  obtain ⟨regs, stack, trapLog, rfl, -, -⟩ := h
  rfl

theorem step_runState {s t : State} (h : step s = .next t) :
    (t.runState = .halted ↔ Executes s .hlt) ∧ (t.runState = .faulted ↔ ∃ K, FaultCause s K) ∧
      t.runState ≠ .ready := by
  have hr : s.runState = .running := (step_next_cases h).1
  have hfault : t.runState = .faulted ↔ ∃ K, FaultCause s K := by
    constructor
    · exact fun hf => ⟨_, (step_faulted_iff_faultCause hr).1 ⟨t, h, hf, rfl⟩⟩
    · rintro ⟨K, hK⟩
      obtain rfl := Host.Outcome.next.inj ((step_of_faultCause hr hK).symm.trans h)
      rfl
  refine ⟨?halts, hfault, ?notReady⟩
  case halts =>
    constructor
    · intro hh
      obtain ⟨K, -, rfl⟩ | ⟨hi, -⟩ | ⟨-, hc⟩ := step_next_shapes h
      · cases hh
      · exact hi
      · exact nomatch hh.symm.trans (hc.runState_eq.trans hr)
    · intro hi
      rw [step_of_executes hr hi, exec_hlt] at h
      cases h
      rfl
  case notReady =>
    intro hready
    obtain ⟨K, -, rfl⟩ | ⟨-, rfl⟩ | ⟨-, hc⟩ := step_next_shapes h
    · cases hready
    · cases hready
    · exact nomatch hready.symm.trans (hc.runState_eq.trans hr)

/-! ### The stores -/

/-- No shape writes the Program, the Trap Table, a parameter or Memory (20_memory.md R52). -/
theorem sameStores_of_step {s t : State} (h : step s = .next t) : SameStores s t ∧ t.memory = s.memory := by
  obtain ⟨K, -, rfl⟩ | ⟨-, rfl⟩ | ⟨-, regs, stack, trapLog, rfl, -⟩ := step_next_shapes h
  all_goals exact ⟨⟨⟨rfl, rfl, rfl, rfl⟩, fun _ => rfl⟩, rfl⟩

/-! ### The end of each instruction -/

/-- How an instruction that answers a next state ends: what it does to registers, stack and trap log. A conditional
jump that is not taken, and NOP, advance, which is a write of the pc alone like a jump. -/
inductive EndsIn (s : State) : Instr → State → Prop
  | fault (i : Instr) (K : FaultKind) : EndsIn s i (s.raise K)
  | halt : EndsIn s .hlt (s.retire .halt)
  | jump (i : Instr) (x : Word) : EndsIn s i (s.setPc x)
  | write (i : Instr) (d : RegIdx) (v : Word)
      (h : destination i = some d ∨ (d = 0 ∧ ∃ ra rb, i = .cmp ra rb)) : EndsIn s i (s.setReg d v).advance
  | push (ra : RegIdx) : EndsIn s (.push ra) (s.withStack (s.reg ra :: s.stack)).advance
  | call (x : Word) : EndsIn s (.call x) ((s.withStack ((s.reg 15 + 1) :: s.stack)).setPc x)
  | pop (ra : RegIdx) (v : Word) (rest : List Word) (h : s.stack = v :: rest) :
      EndsIn s (.pop ra) ((s.withStack rest).setReg ra v).advance
  | ret (v : Word) (rest : List Word) (h : s.stack = v :: rest) : EndsIn s .ret ((s.withStack rest).setPc v)
  | trap (n : Word) (k : TrapNumber) (h : n.toInt = (k.val : Int)) : EndsIn s (.trap n) (s.logTrap k).advance

/-- TRAP with a number in range logs it, or hangs with its handler (45_system_trap.md R172, R173). -/
theorem exec_trap_of_inRange {n : Word} {k : TrapNumber} (s : State) (hn : n.toInt = (k.val : Int)) :
    exec (.trap n) s =
      if s.handlerCompletes k then .next (s.logTrap k).advance else .fault (.trapHandlerNeverCompletes k) := by
  simp only [exec, execTrap, trapIndex_eq_some_iff.2 hn, sequential_eq]

/-- The one case split over Execute: every instruction ends in one of these ways, but a TRAP whose handler hangs. -/
theorem exec_endsIn_or_hangs (i : Instr) (s : State) :
    (∃ t, exec i s = .next t ∧ EndsIn s i t) ∨
      ∃ (n : Word) (k : TrapNumber), i = .trap n ∧ n.toInt = (k.val : Int) ∧ s.handlerCompletes k = false ∧
        exec i s = .fault (.trapHandlerNeverCompletes k) := by
  have branches {taken : Bool} {x : Word} (e : exec i s = branch taken x s) :
      ∃ t, exec i s = .next t ∧ EndsIn s i t := by
    refine ⟨_, e.trans (branch_eq ..), ?_⟩
    split
    · exact .jump i x
    · exact .jump i _
  cases i with
  | add ra | sub ra | mul ra | mov ra => exact .inl ⟨_, writeBack_eq .., .write _ ra _ (.inl rfl)⟩
  | cmp ra rb => exact .inl ⟨_, writeBack_eq .., .write _ 0 _ (.inr ⟨rfl, ra, rb, rfl⟩)⟩
  | jz | jnz | je | jne | jl | jle | jg | jge => exact .inl (branches rfl)
  | jmp x => exact .inl ⟨_, exec_jmp x s, .jump _ x⟩
  | nop => exact .inl ⟨_, exec_nop s, .jump _ _⟩
  | hlt => exact .inl ⟨_, exec_hlt s, .halt⟩
  | div ra rb =>
    by_cases hzero : (s.reg rb).toInt = 0
    · exact .inl ⟨_, exec_div_of_eq_zero ra hzero, .fault _ _⟩
    · exact .inl ⟨_, exec_div_of_ne_zero ra hzero, .write _ ra _ (.inl rfl)⟩
  | push ra =>
    by_cases hfull : s.stackCapacity = some s.stack.length
    · exact .inl ⟨_, exec_push_of_full ra hfull, .fault _ _⟩
    · exact .inl ⟨_, exec_push_of_not_full ra hfull, .push ra⟩
  | call x =>
    by_cases hfull : s.stackCapacity = some s.stack.length
    · exact .inl ⟨_, exec_call_of_full x hfull, .fault _ _⟩
    · have hcall := exec_call_of_not_full x hfull
      rw [wrap32_add_one] at hcall
      exact .inl ⟨_, hcall, .call x⟩
  | pop ra =>
    cases hstack : s.stack with
    | nil => exact .inl ⟨_, exec_pop_of_nil ra hstack, .fault _ _⟩
    | cons v rest => exact .inl ⟨_, exec_pop_of_cons ra hstack, .pop ra v rest hstack⟩
  | ret =>
    cases hstack : s.stack with
    | nil => exact .inl ⟨_, exec_ret_of_nil hstack, .fault _ _⟩
    | cons v rest => exact .inl ⟨_, exec_ret_of_cons hstack, .ret v rest hstack⟩
  | trap n =>
    cases hindex : trapIndex n with
    | none => exact .inl ⟨_, exec_trap_of_outOfRange (trapIndex_eq_none_iff.1 hindex), .fault _ _⟩
    | some k =>
      have hn := trapIndex_eq_some_iff.1 hindex
      have htrap := exec_trap_of_inRange s hn
      cases hk : s.handlerCompletes k with
      | true => exact .inl ⟨_, htrap.trans (if_pos hk), .trap n k hn⟩
      | false => exact .inr ⟨n, k, rfl, hn, hk, htrap.trans (if_neg (by simp [hk]))⟩

theorem endsIn_of_exec {i : Instr} {s t : State} (h : exec i s = .next t) : EndsIn s i t := by
  obtain ⟨u, hu, hends⟩ | ⟨n, k, -, -, -, hhangs⟩ := exec_endsIn_or_hangs i s
  · exact Host.Outcome.next.inj (hu.symm.trans h) ▸ hends
  · exact nomatch h.symm.trans hhangs

/-- A step is a fault entry or the end of the instruction it executes. -/
theorem endsIn_of_step {s t : State} (h : step s = .next t) :
    (∃ K, t = s.raise K) ∨ ∃ i, Executes s i ∧ EndsIn s i t := by
  obtain ⟨-, ⟨-, ht⟩ | ⟨w, e, -, -, ht⟩ | ⟨w, i, hw, hd, hexec⟩⟩ := step_next_cases h
  · exact .inl ⟨_, ht⟩
  · exact .inl ⟨_, ht⟩
  · exact .inr ⟨i, ⟨w, hw, hd⟩, endsIn_of_exec hexec⟩

theorem stack_of_step {s t : State} (h : step s = .next t) :
    t.stack = s.stack ∨ (∃ ra, Executes s (.push ra) ∧ t.stack = s.reg ra :: s.stack) ∨
      (∃ x, Executes s (.call x) ∧ t.stack = (s.reg 15 + 1) :: s.stack) ∨
      ((∃ ra, Executes s (.pop ra)) ∨ Executes s .ret) ∧ ∃ v, s.stack = v :: t.stack := by
  obtain ⟨K, rfl⟩ | ⟨i, hi, hends⟩ := endsIn_of_step h
  · exact .inl rfl
  cases hends with
  | fault | halt | jump | write | trap => exact .inl rfl
  | push ra => exact .inr (.inl ⟨ra, hi, rfl⟩)
  | call x => exact .inr (.inr (.inl ⟨x, hi, rfl⟩))
  | pop ra v rest hs => exact .inr (.inr (.inr ⟨.inl ⟨ra, hi⟩, v, hs⟩))
  | ret v rest hs => exact .inr (.inr (.inr ⟨.inr hi, v, hs⟩))

theorem trapLog_of_step {s t : State} (h : step s = .next t) :
    t.trapLog = s.trapLog ∨
      ∃ (n : Word) (k : TrapNumber), Executes s (.trap n) ∧ n.toInt = (k.val : Int) ∧ t.trapLog = s.trapLog ++ [k] := by
  obtain ⟨K, rfl⟩ | ⟨i, hi, hends⟩ := endsIn_of_step h
  · exact .inl rfl
  cases hends with
  | fault | halt | jump | write | push | call | pop | ret => exact .inl rfl
  | trap n k hn => exact .inr ⟨n, k, hi, hn, rfl⟩

/-- A write-back changes its destination and the pc alone. -/
theorem eq_or_eq_of_reg_writeBack_ne {s : State} {d j : RegIdx} {v : Word}
    (h : ((s.setReg d v).advance).reg j ≠ s.reg j) : j = 15 ∨ j = d := by
  by_contra hj
  obtain ⟨h15, hd⟩ := not_or.1 hj
  exact h ((writesThenAdvances_setReg_advance s d v).1 j hd h15)

theorem eq_of_reg_setPc_ne {s : State} {j : RegIdx} {x : Word} (h : (s.setPc x).reg j ≠ s.reg j) : j = 15 := by
  by_contra h15
  exact h ((onlyPcBecomes_setPc s x).2 j h15)

theorem reg_of_step_ne {s t : State} {j : RegIdx} (h : step s = .next t) (hj : t.reg j ≠ s.reg j) :
    j = 15 ∨ (∃ i, Executes s i ∧ destination i = some j) ∨ (j = 0 ∧ ∃ ra rb, Executes s (.cmp ra rb)) := by
  obtain ⟨K, rfl⟩ | ⟨i, hi, hends⟩ := endsIn_of_step h
  · exact absurd rfl hj
  cases hends with
  | fault | halt => exact absurd rfl hj
  | jump => exact .inl (eq_of_reg_setPc_ne hj)
  | push | call | ret | trap => exact .inl (eq_of_reg_setPc_ne (s := s) hj)
  | write _ d v hd =>
    obtain rfl | rfl := eq_or_eq_of_reg_writeBack_ne hj
    · exact .inl rfl
    obtain hd | ⟨h0, ra, rb, rfl⟩ := hd
    · exact .inr (.inl ⟨i, hi, hd⟩)
    · exact .inr (.inr ⟨h0, ra, rb, hi⟩)
  | pop ra v rest hs =>
    obtain rfl | rfl := eq_or_eq_of_reg_writeBack_ne (s := s.withStack rest) hj
    · exact .inl rfl
    · exact .inr (.inl ⟨.pop j, hi, rfl⟩)

/-! ### A next state, and Memory's part in it -/

/-- With handlers that complete, every instruction answers a next state: only TRAP can hang. -/
theorem exec_answers_next (i : Instr) {s : State} (hs : ∀ n, s.trapTable.get n = .diagnostic) :
    ∃ t, exec i s = .next t := by
  obtain ⟨t, ht, -⟩ | ⟨n, k, -, -, hk, -⟩ := exec_endsIn_or_hangs i s
  · exact ⟨t, ht⟩
  · rw [(s.handlerCompletes_iff k).2 (hs k)] at hk
    cases hk

theorem step_answers_next {s : State} (hr : s.runState = .running) (hs : ∀ n, s.trapTable.get n = .diagnostic) :
    ∃ t, step s = .next t := by
  cases hf : s.fetch with
  | none => exact ⟨_, step_of_fetch_eq_none hr hf⟩
  | some w =>
    cases hd : decode w with
    | error e => exact ⟨_, step_of_faultCause hr (K := .decodeError) ⟨w, e, hf, hd⟩⟩
    | ok i =>
      obtain ⟨t, ht⟩ := exec_answers_next i hs
      exact ⟨t, (step_of_executes hr ⟨w, hf, hd⟩).trans ht⟩

/-- `s` with the Memory `m`. -/
def State.replaceMemory (s : State) (m : Memory) : State := { s with memory := m }

section memory
variable (s : State) (m : Memory)

theorem writeBack_replaceMemory (ra : RegIdx) (v : Word) :
    writeBack ra v (s.replaceMemory m) = withMemory m (writeBack ra v s) := rfl

theorem branch_replaceMemory (taken : Bool) (x : Word) :
    branch taken x (s.replaceMemory m) = withMemory m (branch taken x s) := by cases taken <;> rfl

theorem takeFault_replaceMemory (K : FaultKind) :
    takeFault K (s.replaceMemory m) = withMemory m (takeFault K s) := rfl

/-- No condition that Execute tests reads Memory, so each branch of an instruction commutes with the replacement. -/
theorem exec_replaceMemory (i : Instr) : exec i (s.replaceMemory m) = withMemory m (exec i s) := by
  cases i with
  | add | sub | mul | mov | cmp => exact writeBack_replaceMemory ..
  | jz | jnz | je | jne | jl | jle | jg | jge => exact branch_replaceMemory ..
  | jmp | nop | hlt => rfl
  | div ra rb =>
    by_cases hzero : (s.reg rb).toInt = 0
    · rw [exec_div_of_eq_zero ra hzero, exec_div_of_eq_zero (s := s.replaceMemory m) ra hzero]
      rfl
    · rw [exec_div_of_ne_zero ra hzero, exec_div_of_ne_zero (s := s.replaceMemory m) ra hzero]
      rfl
  | push ra =>
    by_cases hfull : s.stackCapacity = some s.stack.length
    · rw [exec_push_of_full ra hfull, exec_push_of_full (s := s.replaceMemory m) ra hfull]
      rfl
    · rw [exec_push_of_not_full ra hfull, exec_push_of_not_full (s := s.replaceMemory m) ra hfull]
      rfl
  | call x =>
    by_cases hfull : s.stackCapacity = some s.stack.length
    · rw [exec_call_of_full x hfull, exec_call_of_full (s := s.replaceMemory m) x hfull]
      rfl
    · rw [exec_call_of_not_full x hfull, exec_call_of_not_full (s := s.replaceMemory m) x hfull]
      rfl
  | pop ra =>
    cases hstack : s.stack with
    | nil =>
      rw [exec_pop_of_nil ra hstack, exec_pop_of_nil (s := s.replaceMemory m) ra hstack]
      rfl
    | cons v rest =>
      rw [exec_pop_of_cons ra hstack, exec_pop_of_cons (s := s.replaceMemory m) ra hstack]
      rfl
  | ret =>
    cases hstack : s.stack with
    | nil =>
      rw [exec_ret_of_nil hstack, exec_ret_of_nil (s := s.replaceMemory m) hstack]
      rfl
    | cons v rest =>
      rw [exec_ret_of_cons hstack, exec_ret_of_cons (s := s.replaceMemory m) hstack]
      rfl
  | trap n =>
    cases hindex : trapIndex n with
    | none =>
      have hout := trapIndex_eq_none_iff.1 hindex
      rw [exec_trap_of_outOfRange hout, exec_trap_of_outOfRange hout]
      rfl
    | some k =>
      have hn := trapIndex_eq_some_iff.1 hindex
      rw [exec_trap_of_inRange _ hn, exec_trap_of_inRange _ hn, apply_ite (withMemory m)]
      rfl

/-- Fetch and Decode do not read Memory either (20_memory.md R52). -/
theorem step_replaceMemory : step (s.replaceMemory m) = withMemory m (step s) := by
  have hfetch : (s.replaceMemory m).fetch = s.fetch := rfl
  cases hr : s.runState with
  | ready | halted | faulted =>
    have hr' : (s.replaceMemory m).runState = s.runState := rfl
    simp only [step, hr', hr, withMemory]
  | running =>
    rw [step_of_running hr, step_of_running (s := s.replaceMemory m) hr, hfetch]
    cases s.fetch with
    | none => exact takeFault_replaceMemory s m _
    | some w =>
      cases hd : decode w with
      | error e => simp only [hd, takeFault_replaceMemory]
      | ok i => simp only [hd, exec_replaceMemory]

end memory

end Sys2Proof.Machine

open Sys2Proof Sys2Proof.Machine

/-- Settles O14: Fetch and Decode answer an instruction or fault, and Execute answers a next state. -/
theorem runningStepAnswersNext : Obligations.RunningStepAnswersNext := by
  unfold Obligations.RunningStepAnswersNext
  exact fun s => step_answers_next

/-- Settles O16: a step that ends in `Faulted` had a cause, and a cause that holds is taken. -/
theorem eachFaultHasExactlyItsCause : Obligations.EachFaultHasExactlyItsCause := by
  unfold Obligations.EachFaultHasExactlyItsCause
  exact fun s K => step_faulted_iff_faultCause

/-- Settles O17: by the three shapes of a next state. -/
theorem runStateMovesOnlyByHltOrFault : Obligations.RunStateMovesOnlyByHltOrFault := by
  unfold Obligations.RunStateMovesOnlyByHltOrFault
  exact fun s t => step_runState

/-- Settles O18: none of the three shapes writes a store. -/
theorem stepChangesNoStore : Obligations.StepChangesNoStore := by
  unfold Obligations.StepChangesNoStore
  exact fun s t => sameStores_of_step

/-- Settles O19: Fetch, Decode and each branch of Execute commute with the replacement of Memory. -/
theorem memoryContentsHaveNoEffect : Obligations.MemoryContentsHaveNoEffect := by
  unfold Obligations.MemoryContentsHaveNoEffect
  exact step_replaceMemory

/-- Settles O20: by the end of the executed instruction. -/
theorem stackChangesByItsFourInstructions : Obligations.StackChangesByItsFourInstructions := by
  unfold Obligations.StackChangesByItsFourInstructions
  exact fun s t => stack_of_step

/-- Settles O21: by the end of the executed instruction. -/
theorem trapLogGrowsByTrapAlone : Obligations.TrapLogGrowsByTrapAlone := by
  unfold Obligations.TrapLogGrowsByTrapAlone
  exact fun s t => trapLog_of_step

/-- Settles O22: by the end of the executed instruction. -/
theorem registersChangeOnlyWhereNamed : Obligations.RegistersChangeOnlyWhereNamed := by
  unfold Obligations.RegistersChangeOnlyWhereNamed
  exact fun s t j => reg_of_step_ne

/-- Settles O11: the Program's word at R15 is the one fetched, and the step is Execute of what it decodes to. -/
theorem stepExecutesTheDecodedInstruction : Obligations.StepExecutesTheDecodedInstruction := by
  unfold Obligations.StepExecutesTheDecodedInstruction
  intro s w i hr hpc hw hd _
  exact step_of_executes hr ⟨w, State.fetch_eq_some_iff.2 ⟨hpc, hw⟩, hd⟩

/-- Settles O51: the number is in range, and its handler does not complete. -/
theorem trapHangsWithItsHandler : Obligations.TrapHangsWithItsHandler := by
  unfold Obligations.TrapHangsWithItsHandler
  intro n k s hn hk
  have hhangs : s.handlerCompletes k ≠ true := by rw [Ne, s.handlerCompletes_iff, hk]; decide
  exact (exec_trap_of_inRange s hn).trans (if_neg hhangs)
end

section
/-! PROOFS. The host's commands: what an accepted one is (10_state.md R40), the boot (70_reset_and_hazards.md R221,
R222), the loader's mirror (20_memory.md R52), and the status port (10_state.md R33, R34). -/

namespace Sys2Proof.Machine

open Claims

/-! ### Accepted commands -/

theorem inReady_eq_some_iff {s t : State} {r : Option State} :
    inReady s r = some t ↔ s.runState = .ready ∧ r = some t := by
  unfold inReady
  split <;> simp_all

theorem inReady_of_ready {s : State} (hr : s.runState = .ready) (r : Option State) : inReady s r = r := if_pos hr

/-- Every command but reset is gated by `Ready`. -/
theorem ready_of_hostAct {c : HostCommand} {s t : State} (h : hostAct c s = some t) :
    c = .reset ∨ s.runState = .ready := by
  cases c with
  | reset => exact .inl rfl
  | start | preload | loadProgram | memWrite | mirrorOpcodes => exact .inr (inReady_eq_some_iff.1 h).1

theorem sameBeyondRegisters_setReg (s : State) (i : RegIdx) (v : Word) : SameBeyondRegisters s (s.setReg i v) :=
  ⟨rfl, rfl, ⟨rfl, rfl, rfl⟩, ⟨rfl, rfl, rfl, rfl⟩, State.memRead_setReg s i v⟩

/-! ### The boot -/

/-- With R15 at 0, the first word of the Program is fetched next. -/
theorem fetch_of_pc_eq_zero {s : State} (h : s.pc = 0) : s.fetch = s.program.head? := by
  rw [State.fetch, h, List.head?_eq_getElem?]
  rfl

/-! ### The mirror -/

section mirror
variable {n : Nat}

/-- The mirror writes no cell outside the indices of its words. -/
theorem read_mirrorFrom_of_outside {ws : List InstrWord} {i a : Nat} (m : Memory) (h : a < i ∨ i + ws.length ≤ a) :
    (mirrorFrom n ws i m).read a = m.read a := by
  induction ws generalizing i m with
  | nil => rfl
  | cons w ws ih =>
    rw [List.length_cons] at h
    have hne : a ≠ i := by omega
    rw [mirrorFrom, ih _ (by omega)]
    split
    · exact Memory.read_write_ne m _ hne
    · rfl

/-- The cell of a mirrored word holds the word's opcode code: the words after it do not write it. -/
theorem read_mirrorFrom {ws : List InstrWord} {i k : Nat} {m : Memory} {w : InstrWord} (hm : m.wf = true)
    (hw : ws[k]? = some w) (hk : i + k < n) :
    (mirrorFrom n ws i m).read (i + k) = (opcodeField w).zeroExtend 32 := by
  induction ws generalizing i k m with
  | nil => cases hw
  | cons x ws ih =>
    rw [mirrorFrom]
    cases k with
    | zero =>
      obtain rfl : x = w := Option.some.inj hw
      rw [read_mirrorFrom_of_outside _ (.inl (by omega)), if_pos (by omega), Nat.add_zero,
        Memory.read_write_self hm]
    | succ k =>
      have hm' : (if i < n then m.write i ((opcodeField x).zeroExtend 32) else m).wf = true := by
        split
        · exact Memory.wf_write hm _ _
        · exact hm
      have hpos : i + (k + 1) = i + 1 + k := by omega
      rw [hpos] at hk ⊢
      exact ih hm' hw hk

/-- A code has 16 bits, so its cell is not negative (90_conflicts.md C12). -/
theorem toInt_zeroExtend_code (c : BitVec 16) : (c.zeroExtend 32).toInt = (c.toNat : Int) := by
  have hc := c.isLt
  have hnat : (c.zeroExtend 32).toNat = c.toNat :=
    (BitVec.toNat_setWidth 32 c).trans (Nat.mod_eq_of_lt (by omega))
  rw [BitVec.toInt_eq_toNat_of_lt (by omega), hnat]

end mirror

/-- The state after the loader's mirror. -/
def State.mirrored (s : State) : State := { s with memory := mirrorFrom s.memSize s.program 0 s.memory }

theorem hostAct_mirrorOpcodes {s : State} (hr : s.runState = .ready) :
    hostAct .mirrorOpcodes s = some s.mirrored := inReady_of_ready hr _

theorem memRead_mirrored {s : State} {i : Nat} {w : InstrWord} (hm : s.memory.wf = true) (hi : i < s.memSize)
    (hw : s.program[i]? = some w) : s.mirrored.memRead i = some ((opcodeField w).zeroExtend 32) := by
  have hread := read_mirrorFrom (i := 0) hm hw (by omega : 0 + i < s.memSize)
  rw [Nat.zero_add] at hread
  have hin : (i : Int) < (s.mirrored.memSize : Int) := Int.ofNat_lt.2 hi
  rw [State.memRead_of_inRange (Int.natCast_nonneg i) hin, Int.toNat_natCast]
  exact congrArg some hread

theorem memRead_mirrored_of_length_le {s : State} {a : Int} (ha : (s.program.length : Int) ≤ a) :
    s.mirrored.memRead a = s.memRead a := by
  have hread : s.mirrored.memory.read a.toNat = s.memory.read a.toNat := read_mirrorFrom_of_outside _ (by omega)
  have hselect : s.mirrored.selectCell a = s.selectCell a := rfl
  rw [State.memRead, State.memRead, hselect]
  cases h : s.selectCell a with
  | none => rfl
  | some k =>
    obtain ⟨-, -, rfl⟩ := State.selectCell_eq_some.1 h
    exact congrArg some hread

end Sys2Proof.Machine

open Sys2Proof Sys2Proof.Machine

/-- Settles O57: the words after a mirrored one do not write its cell, and no word writes a cell outside the indices. -/
theorem mirrorHoldsTheOpcodeCodes : Obligations.MirrorHoldsTheOpcodeCodes := by
  unfold Obligations.MirrorHoldsTheOpcodeCodes
  intro s hr hm
  refine ⟨s.mirrored, hostAct_mirrorOpcodes hr, fun i w hi hw => ?mirrored, fun a => memRead_mirrored_of_length_le,
    fun _ => rfl, rfl, rfl, ⟨rfl, rfl, rfl⟩, ⟨rfl, rfl, rfl, rfl⟩⟩
  case mirrored => exact ⟨_, memRead_mirrored hm hi hw, toInt_zeroExtend_code _⟩

/-- Settles O13: a step starts in `Running`; in the terminal states no command but reset is gated open, and every read
of the host is. -/
theorem noStepOutsideRunning : Obligations.NoStepOutsideRunning := by
  unfold Obligations.NoStepOutsideRunning
  refine ⟨fun s t h => (step_next_cases h).1, fun s hs => ?terminal⟩
  have hterminal : s.terminal = true := by simpa [State.terminal] using hs
  have hnotReady : s.runState ≠ .ready := by obtain hs | hs := hs <;> simp [hs]
  have hnotRunning : s.runState ≠ .running := by obtain hs | hs := hs <;> simp [hs]
  refine ⟨fun t c h => (ready_of_hostAct h).resolve_right hnotReady, fun j => if_pos hterminal, if_pos hterminal,
    if_pos hterminal, if_pos hterminal, fun a => if_neg hnotRunning, rfl⟩

/-- Settles O53: reset keeps the configuration, and the first state is a reset state under the default one. -/
theorem firstStateIsAResetState : Obligations.FirstStateIsAResetState := by
  unfold Obligations.FirstStateIsAResetState
  exact ⟨rfl, State.reg_resetWith _ _ _ _, rfl, rfl, by decide⟩

/-- Settles O54: in `Ready` the gate is open, and a preload is a register write. -/
theorem controlPortInReadyAlone : Obligations.ControlPortInReadyAlone := by
  unfold Obligations.ControlPortInReadyAlone
  refine ⟨fun c s t => ready_of_hostAct, fun s hr => inReady_of_ready hr _, fun i v s hr => ?preload⟩
  exact ⟨s.setReg i v, inReady_of_ready hr _, State.reg_setReg_self s i v, fun j => State.reg_setReg_ne s v,
    sameBeyondRegisters_setReg s i v⟩

/-- Settles O55: both commands find `Ready`, and R15 keeps its reset value 0. -/
theorem bootFetchesIndexZero : Obligations.BootFetchesIndexZero := by
  unfold Obligations.BootFetchesIndexZero
  intro ws hlen
  have hpc : State.reset.reg 15 = 0 := State.reg_resetWith _ _ _ _ _
  refine ⟨{ State.reset with program := ws }, { State.reset with program := ws, runState := .running },
    ?loaded, rfl, rfl, hpc, rfl, fetch_of_pc_eq_zero hpc⟩
  exact (inReady_of_ready rfl _).trans (if_pos hlen)

/-- Settles O58: run state by run state and kind by kind. -/
theorem statusPortCodes : Obligations.StatusPortCodes := by
  unfold Obligations.StatusPortCodes
  intro s
  rfl
end

section
/-! PROOFS. The invariant of 10_state.md sections 4 and 5: it holds after every reset, and every step and every accepted
host command keeps it, so it holds of every reachable state. -/

namespace Sys2Proof.Machine

open Claims

/-- The state after a reset meets the invariant under every configuration with an admitted Program. -/
theorem inv_resetWith {p : List InstrWord} (tt : Vector Handler 16) (m : Nat) (c : Option Nat)
    (hp : p.length ≤ Config.maxProgLen) : (State.resetWith p tt m c).Inv where
  memoryCanonical := rfl
  memoryWithin := rfl
  programLength := hp
  stackWithin _ _ := Nat.zero_le _
  recordClear _ := ⟨rfl, rfl⟩
  recordSet h := nomatch h
  overflowFinite h := nomatch h
  readyFresh _ := ⟨rfl, rfl⟩

section inv
variable {s t : State}

theorem State.Inv.raise {K : FaultKind} (hs : s.Inv) (hK : FaultCause s K) : (s.raise K).Inv where
  memoryCanonical := hs.memoryCanonical
  memoryWithin := hs.memoryWithin
  programLength := hs.programLength
  stackWithin := hs.stackWithin
  recordClear h := absurd rfl h
  recordSet _ := by
    refine ⟨?kind, rfl⟩
    rintro rfl
    exact hK
  overflowFinite h := by
    obtain rfl : K = .stackOverflow := h
    obtain ⟨-, hfull⟩ := hK
    exact fun hnone => nomatch hnone.symm.trans hfull
  readyFresh h := nomatch h

/-- A running or halted state meets the invariant with any registers and trap log, and with any stack that fits. -/
theorem State.Inv.of_not_faulted {regs : Vector Word 16} {stack : List Word} {trapLog : List TrapNumber}
    {runState : RunState} (hs : s.Inv) (hr : s.runState ≠ .faulted)
    (hstack : ∀ c, s.stackCapacity = some c → stack.length ≤ c) (hfaulted : runState ≠ .faulted)
    (hready : runState ≠ .ready) :
    State.Inv { s with regs := regs, stack := stack, trapLog := trapLog, runState := runState } where
  memoryCanonical := hs.memoryCanonical
  memoryWithin := hs.memoryWithin
  programLength := hs.programLength
  stackWithin := hstack
  recordClear _ := hs.recordClear hr
  recordSet h := absurd h hfaulted
  overflowFinite := hs.overflowFinite
  readyFresh h := absurd h hready

/-- A push that is not onto a full stack, and a pop, keep the stack within its capacity (10_state.md R31). -/
theorem stackWithin_of_completes (hs : s.Inv) (h : Completes s t) :
    ∀ c, s.stackCapacity = some c → t.stack.length ≤ c := by
  intro c hc
  have hwithin := hs.stackWithin c hc
  obtain ⟨regs, stack, trapLog, rfl, rfl | ⟨v, rfl, hroom⟩ | ⟨v, hv⟩, -⟩ := h
  · exact hwithin
  · have hne : s.stack.length ≠ c := fun e => hroom (e ▸ hc)
    rw [List.length_cons]
    omega
  · rw [hv, List.length_cons] at hwithin
    exact Nat.le_of_succ_le hwithin

theorem State.Inv.step (hs : s.Inv) (h : step s = .next t) : t.Inv := by
  have hr : s.runState = .running := (step_next_cases h).1
  have hne : s.runState ≠ .faulted := by rw [hr]; decide
  obtain ⟨K, hK, rfl⟩ | ⟨-, rfl⟩ | ⟨-, hc⟩ := step_next_shapes h
  · exact hs.raise hK
  · exact hs.of_not_faulted hne hs.stackWithin (by decide) (by decide)
  · have hstack := stackWithin_of_completes hs hc
    obtain ⟨regs, stack, trapLog, rfl, -⟩ := hc
    exact hs.of_not_faulted hne hstack hne (by rw [hr]; decide)

/-- Reset clears what the invariant speaks of; each other command finds `Ready`, where the record is clear, and writes
one field. -/
theorem State.Inv.hostAct {c : HostCommand} (hs : s.Inv) (h : hostAct c s = some t) : t.Inv := by
  cases c with
  | reset =>
    cases h
    exact inv_resetWith _ _ _ hs.programLength
  | start =>
    obtain ⟨hr, h⟩ := inReady_eq_some_iff.1 h
    cases h
    exact hs.of_not_faulted (by rw [hr]; decide) hs.stackWithin (by decide) (by decide)
  | preload i v =>
    obtain ⟨hr, h⟩ := inReady_eq_some_iff.1 h
    cases h
    exact { hs with recordSet := fun hf => nomatch hr.symm.trans hf }
  | loadProgram ws =>
    obtain ⟨hr, h⟩ := inReady_eq_some_iff.1 h
    split at h
    · next hlen =>
      cases h
      exact { hs with programLength := hlen }
    · cases h
  | memWrite a v =>
    obtain ⟨hr, h⟩ := inReady_eq_some_iff.1 h
    obtain ⟨⟨h0, h1⟩, rfl⟩ := State.memWrite_eq_some.1 h
    have hcell : a.toNat < s.memSize := by omega
    exact { hs with
      memoryCanonical := Memory.wf_write hs.memoryCanonical _ v
      memoryWithin := Memory.within_write hs.memoryWithin hcell v }
  | mirrorOpcodes =>
    obtain ⟨hr, h⟩ := inReady_eq_some_iff.1 h
    cases h
    obtain ⟨hwf, hwithin⟩ := mirrorFrom_keeps s.memSize s.program 0 _ hs.memoryCanonical hs.memoryWithin
    exact { hs with memoryCanonical := hwf, memoryWithin := hwithin }

end inv

theorem inv_of_reachable {s : State} (h : Reachable s) : s.Inv := by
  induction h with
  | reset p tt m c hp => exact inv_resetWith tt m c hp
  | host c s t _ hact ih => exact ih.hostAct hact
  | step s t _ hstep ih => exact ih.step hstep

end Sys2Proof.Machine

open Sys2Proof Sys2Proof.Machine

/-- Settles O24: the first state is a reset state, with an empty Program. -/
theorem resetMeetsTheInvariant : Obligations.ResetMeetsTheInvariant := by
  unfold Obligations.ResetMeetsTheInvariant
  exact inv_resetWith _ _ _ (Nat.zero_le _)

/-- Settles O25: by the three shapes of a next state. -/
theorem stepKeepsTheInvariant : Obligations.StepKeepsTheInvariant := by
  unfold Obligations.StepKeepsTheInvariant
  exact fun s t => State.Inv.step

/-- Settles O26: command by command; all but reset are given in `Ready`. -/
theorem hostCommandKeepsTheInvariant : Obligations.HostCommandKeepsTheInvariant := by
  unfold Obligations.HostCommandKeepsTheInvariant
  exact fun c s t => State.Inv.hostAct

/-- Settles O27: by induction on how the state was reached. -/
theorem reachableStatesMeetTheInvariant : Obligations.ReachableStatesMeetTheInvariant := by
  unfold Obligations.ReachableStatesMeetTheInvariant
  exact fun s => inv_of_reachable
end

section
/-! PROOFS. CMP and the order of its operands (42_move_compare.md R131), the overflowing quotient (41_arithmetic.md R125),
R15 as an operand (10_state.md R28), a target outside the Program (43_jumps.md R151), and the return after a balanced
run (44_stack_call.md R162, R163). -/

namespace Sys2Proof.Machine

open Claims

/-! ### CMP -/

section compare
variable {a b : Word}

theorem toInt_threeWay_of_lt (h : a.toInt < b.toInt) : (threeWay a b).toInt = -1 := by
  rw [threeWay, if_pos h]
  decide

theorem toInt_threeWay_of_eq (h : a.toInt = b.toInt) : (threeWay a b).toInt = 0 := by
  rw [threeWay, if_neg (by omega), if_pos h]
  decide

theorem toInt_threeWay_of_gt (h : b.toInt < a.toInt) : (threeWay a b).toInt = 1 := by
  rw [threeWay, if_neg (by omega), if_neg (by omega)]
  decide

theorem toInt_threeWay_swap (a b : Word) : (threeWay b a).toInt = -(threeWay a b).toInt := by
  obtain h | h | h := lt_trichotomy a.toInt b.toInt
  · rw [toInt_threeWay_of_gt h, toInt_threeWay_of_lt h, neg_neg]
  · rw [toInt_threeWay_of_eq h, toInt_threeWay_of_eq h.symm, neg_zero]
  · rw [toInt_threeWay_of_lt h, toInt_threeWay_of_gt h]

end compare

/-- CMP writes R0 and advances (42_move_compare.md R131): R0 is not the pc, so no case is left open. -/
theorem exec_cmp_completes (ra rb : RegIdx) (s : State) :
    ∃ t, exec (.cmp ra rb) s = .next t ∧ t.reg 0 = threeWay (s.reg ra) (s.reg rb) ∧
      (∀ j, j ≠ 0 → j ≠ 15 → t.reg j = s.reg j) ∧ IsWrapOf (t.reg 15) ((s.reg 15).toInt + 1) ∧
      SameBeyondRegisters s t := by
  obtain ⟨hothers, hdestination, -⟩ := writesThenAdvances_setReg_advance s flagReg (threeWay (s.reg ra) (s.reg rb))
  obtain ⟨hflag, hpc⟩ := hdestination (by decide)
  exact ⟨_, writeBack_eq .., hflag, hothers, hpc, sameBeyondRegisters_setReg_advance s _ _⟩

/-! ### The overflowing quotient -/

/-- `2^31` wraps to the dividend (41_arithmetic.md R125). -/
theorem wrap32_tdiv_min_neg_one {v w : Word} (hv : v.toInt = -2147483648) (hw : w.toInt = -1) :
    wrap32 (v.toInt.tdiv w.toInt) = v := by
  apply BitVec.eq_of_toInt_eq
  rw [hw, hv]
  decide

/-! ### R15 as an operand -/

/-- A write-back completes with its destination written and, for R15, incremented after the write (10_state.md R28). -/
theorem writeBack_completes (ra : RegIdx) (v : Word) (s : State) :
    ∃ t, writeBack ra v s = .next t ∧ WritesThenAdvances s t ra v ∧ SameBeyondRegisters s t :=
  ⟨_, writeBack_eq .., writesThenAdvances_setReg_advance s ra v, sameBeyondRegisters_setReg_advance s ra v⟩

/-- Two congruences compose: the wrapped value plus 1 is a wrap of the exact sum plus 1. -/
theorem isWrapOf_add_one_trans {u v : Word} {z : Int} (hu : IsWrapOf u (v.toInt + 1)) (hv : IsWrapOf v z) :
    IsWrapOf u (z + 1) := by
  unfold IsWrapOf at *
  omega

theorem stackFull_eq_false_iff {s : State} : s.stackFull = false ↔ s.stackCapacity ≠ some s.stack.length := by
  rw [← Bool.not_eq_true, s.stackFull_iff]

/-! ### A target outside the Program -/

/-- JMP, and CALL on a stack that is not full, complete with the pc at their target and the Program kept. -/
theorem step_of_jmp_or_call {s : State} {x : Word} (hr : s.runState = .running)
    (h : Executes s (.jmp x) ∨ (Executes s (.call x) ∧ s.stackFull = false)) :
    ∃ t, step s = .next t ∧ t.runState = .running ∧ t.reg 15 = x ∧ t.program = s.program := by
  obtain hi | ⟨hi, hroom⟩ := h
  · exact ⟨_, (step_of_executes hr hi).trans (exec_jmp x s), hr, State.pc_setPc s x, rfl⟩
  · exact ⟨_, (step_of_executes hr hi).trans (exec_call_of_not_full x (stackFull_eq_false_iff.1 hroom)), hr,
      State.pc_setPc _ x, rfl⟩

/-! ### The return after a balanced run -/

/-- One step moves the stack by at most one entry at its top, so what lies under the top stays. -/
theorem suffix_of_step {s t : State} {base : List Word} (h : step s = .next t) (hbase : base <:+ s.stack)
    (hlen : base.length ≤ t.stack.length) : base <:+ t.stack := by
  obtain heq | ⟨ra, -, hpush⟩ | ⟨x, -, hcall⟩ | ⟨-, v, hpop⟩ := stack_of_step h
  · exact heq ▸ hbase
  · exact hpush ▸ hbase.trans (List.suffix_cons ..)
  · exact hcall ▸ hbase.trans (List.suffix_cons ..)
  · rw [hpop] at hbase
    refine (List.suffix_cons_iff.1 hbase).resolve_left fun hall => ?_
    rw [hall, List.length_cons] at hlen
    omega

/-- A run in which the stack never gets shorter than `base` leaves `base` at its bottom. -/
theorem suffix_of_runsTo {k : Nat} {s t : State} {base : List Word} (hbase : base <:+ s.stack) (hrun : RunsTo k s t)
    (hlen : ∀ j u, j ≤ k → RunsTo j s u → base.length ≤ u.stack.length) : base <:+ t.stack := by
  induction k generalizing s with
  | zero => exact runsTo_zero.1 hrun ▸ hbase
  | succ k ih =>
    obtain ⟨u, hstep, hrest⟩ := runsTo_succ.1 hrun
    have hone : RunsTo 1 s u := runsTo_succ.2 ⟨u, hstep, runsTo_zero.2 rfl⟩
    refine ih (suffix_of_step hstep hbase (hlen 1 u (by omega) hone)) hrest fun j v hj hv => ?_
    exact hlen (j + 1) v (by omega) (runsTo_succ.2 ⟨u, hstep, hv⟩)

end Sys2Proof.Machine

open Sys2Proof Sys2Proof.Machine

/-- Settles O32: the divisor is not 0, and the wrapped quotient that is written back is the dividend. -/
theorem divOfMinByMinusOneWraps : Obligations.DivOfMinByMinusOneWraps := by
  unfold Obligations.DivOfMinByMinusOneWraps
  intro ra rb s ha hb
  have hne : (s.reg rb).toInt ≠ 0 := by omega
  obtain ⟨t, hexec, hwrites, hsame⟩ := writeBack_completes ra (s.reg ra) s
  rw [exec_div_of_ne_zero ra hne, wrap32_tdiv_min_neg_one ha hb]
  exact ⟨t, hexec, runState_of_writeBack hexec, hwrites, hsame⟩

/-- Settles O34: the word is CMP's encoding, and R0 holds the three-way comparison. -/
theorem cmpSetsTheThreeWayResult : Obligations.CmpSetsTheThreeWayResult := by
  unfold Obligations.CmpSetsTheThreeWayResult
  intro ra rb s
  obtain ⟨t, hexec, hflag, hrest⟩ := exec_cmp_completes ra rb s
  refine ⟨decode_wordRR (op := .cmp) (by decide) rfl rfl, t, hexec, ?_⟩
  rw [hflag]
  exact ⟨toInt_threeWay_of_lt, toInt_threeWay_of_eq, toInt_threeWay_of_gt, hrest⟩

/-- Settles O35: the first CMP leaves both operands, and the three-way comparison is antisymmetric. -/
theorem cmpSwappedIsNegated : Obligations.CmpSwappedIsNegated := by
  unfold Obligations.CmpSwappedIsNegated
  intro ra rb s ha0 hb0 ha15 hb15
  obtain ⟨t, hfirst, hflag, hothers, -⟩ := exec_cmp_completes ra rb s
  obtain ⟨u, hsecond, hflag', -⟩ := exec_cmp_completes rb ra t
  refine ⟨t, u, hfirst, hsecond, ?_⟩
  rw [hflag', hothers ra ha0 ha15, hothers rb hb0 hb15, hflag, toInt_threeWay_swap]

/-- Settles O36: as a source R15 is read before Advance, as a destination it is written before Advance. -/
theorem r15AsAnOperand : Obligations.R15AsAnOperand := by
  unfold Obligations.R15AsAnOperand
  intro r s
  refine ⟨fun hr => ?movFrom, fun hroom => ?push, ?movTo, fun v rest hstack => ?pop, ?add⟩
  case movFrom =>
    obtain ⟨t, hexec, ⟨-, hdestination, -⟩, -⟩ := writeBack_completes r (s.reg 15) s
    exact ⟨t, hexec, (hdestination hr).1⟩
  case push =>
    obtain ⟨t, hexec, hstack, -⟩ := exec_push_completes 15 (stackFull_eq_false_iff.1 hroom)
    exact ⟨t, hexec, hstack⟩
  case movTo =>
    obtain ⟨t, hexec, ⟨-, -, hr15⟩, -⟩ := writeBack_completes 15 (s.reg r) s
    exact ⟨t, hexec, hr15 rfl⟩
  case pop =>
    obtain ⟨t, hexec, -, ⟨-, -, hr15⟩, -⟩ := exec_pop_completes 15 hstack
    exact ⟨t, hexec, hr15 rfl⟩
  case add =>
    obtain ⟨v, t, hexec, hwrap, ⟨-, -, hr15⟩, -⟩ := writeBack_wrap32 15 ((s.reg 15).toInt + (s.reg r).toInt) s
    exact ⟨t, hexec, isWrapOf_add_one_trans (hr15 rfl) hwrap⟩

/-- Settles O42: the jump writes the pc unchecked, and the next Fetch, from the same Program, answers nothing. -/
theorem outOfRangeTargetFaultsAtTheNextFetch : Obligations.OutOfRangeTargetFaultsAtTheNextFetch := by
  unfold Obligations.OutOfRangeTargetFaultsAtTheNextFetch
  intro x s hr hout hi
  obtain ⟨t, hstep, hrunning, hpc, hprogram⟩ := step_of_jmp_or_call hr hi
  have hnone : t.fetch = none := by
    rw [State.fetch_eq_none_iff, State.pc_eq_reg, hpc, hprogram]
    exact hout
  exact ⟨t, _, hstep, hrunning, hpc, step_of_fetch_eq_none hrunning hnone, isFaultEntry_raise _ t, hpc⟩

/-- Settles O47: by induction on the run, the stack the CALL left is still at the bottom, so at the same length it is the
whole stack and the RET pops the return address. -/
theorem callReturnsAfterAnyBalancedRun : Obligations.CallReturnsAfterAnyBalancedRun := by
  unfold Obligations.CallReturnsAfterAnyBalancedRun
  intro x k s t b hr hcall hroom hstep hrun hbalanced hlen hrunning hret
  obtain ⟨t', hexec, hpushed, -⟩ := exec_call_completes x (stackFull_eq_false_iff.1 hroom)
  rw [step_of_executes hr hcall, hexec, Host.Outcome.next.injEq] at hstep
  obtain rfl := hstep
  have hstack : b.stack = t'.stack := ((suffix_of_runsTo List.suffix_rfl hrun hbalanced).eq_of_length hlen.symm).symm
  rw [hpushed, wrap32_add_one] at hstack
  obtain ⟨c, hreturns, hrest, hpc, -⟩ := exec_ret_completes hstack
  exact ⟨c, (step_of_executes hrunning hret).trans hreturns, hrest, hpc⟩
end
